-- ==== Sys2Proof/Word.lean ====
section
/-! DEFINITION. The word types of OBLDC2-CORE: the unsigned widths of 00_scope.md R9, the 96-bit command value of
30_encoding.md R80 and the 16-bit callback handle of R95. -/

namespace Sys2Proof

/-- `u8` (00_scope.md R9). -/
abbrev U8 := BitVec 8

/-- `u16` (R9); also the carrier of the `s16` duty, read through `BitVec.toInt`. -/
abbrev U16 := BitVec 16

/-- `u32` (R9). -/
abbrev U32 := BitVec 32

/-- A callback handle: an opaque 16-bit value, every value legal (30_encoding.md R95). -/
abbrev Handle := BitVec 16

/-- The command value `C[95:0]` (R80). -/
abbrev Command := BitVec 96

end Sys2Proof
end

