-- ==== Sys2Proof/Syntax.lean ====
section
/-! DEFINITION. The fourteen commands of 30_encoding.md R83 with their operands as R82 assembles them, and the
assembler's source syntax of R89 and R90. -/

namespace Sys2Proof

/-- One constructor per row of spec/opcode_table.json. Operand widths are R82's, so every term is a command; an
out-of-range slot id is a legal command (R62). -/
inductive Instr where
  /-- PWM.INIT (40_pwm_commutation.md R103). -/
  | pwmInit
  /-- PWM.FLOAT (R104). -/
  | pwmFloat
  /-- PWM.LOW (R105). -/
  | pwmLow
  /-- PWM.DUTY: `value` is `arg0[15:0]`, an s16 (R106). -/
  | pwmDuty (value : U16)
  /-- PWM.COM (R107). -/
  | pwmCom
  /-- ADC.INIT: `half` is `cb`, `full` is `arg0[15:0]` (41_adc_pipeline.md R140). -/
  | adcInit (half full : Handle)
  /-- HTS.REG: `cb`, and `delta` is `arg0[15:0]` (42_hw_timer_scheduler.md R160). -/
  | htsReg (cb : Handle) (delta : U16)
  /-- HTS.UNREG (R161). -/
  | htsUnreg (slot : U8)
  /-- HTS.MOD: `delta` is `arg0[15:0]` (R162). -/
  | htsMod (slot : U8) (delta : U16)
  /-- STL.REG: `cb`, and `period` is `arg0` (43_soft_timer_ladder.md R180). -/
  | stlReg (cb : Handle) (period : U32)
  /-- STL.UNREG (R181). -/
  | stlUnreg (slot : U8)
  /-- STL.UPD: `period` is `arg0` (R182). -/
  | stlUpd (slot : U8) (period : U32)
  /-- STL.TS (R184). -/
  | stlTs
  /-- STL.ELAPSED: `ts` is `arg0`, `thr` is `arg1` (R185). -/
  | stlElapsed (ts thr : U32)
deriving DecidableEq, Repr

/-- A line of the assembler (R89): operands are the numbers the programmer writes, in range or not.
`brake` and `stop` are the pseudo-commands of R90. -/
inductive Asm where
  | pwmInit
  | pwmFloat
  | pwmLow
  | pwmDuty (value : Int)
  | pwmCom
  | adcInit (half full : Nat)
  | htsReg (cb delta : Nat)
  | htsUnreg (slot : Nat)
  | htsMod (slot delta : Nat)
  | stlReg (cb period : Nat)
  | stlUnreg (slot : Nat)
  | stlUpd (slot period : Nat)
  | stlTs
  | stlElapsed (timestamp threshold : Nat)
  | brake
  | stop
deriving DecidableEq, Repr

end Sys2Proof
end

