-- ==== Sys2Proof/WellFormed.lean ====
section
/-! DEFINITION. The assembler's checks (30_encoding.md R89: "An operand outside its range is an assembly error, not a
command") and its expansion into commands (R89, R90). Commands themselves are well formed by their types. -/

namespace Sys2Proof

/-- A handle operand is hexadecimal and 16 bits wide (R82, R95). -/
def isHandle (h : Nat) : Bool := h < 2 ^ 16

/-- 0 <= slot <= 255 (R89). -/
def isSlot (n : Nat) : Bool := n < 2 ^ 8

/-- 0 <= delta <= 65535 (R89). -/
def isDelta (n : Nat) : Bool := n < 2 ^ 16

/-- 0 <= period <= 4294967295 (R89); also the two u32 operands of STL.ELAPSED (R82). -/
def isWord (n : Nat) : Bool := n < 2 ^ 32

/-- -32768 <= value <= 32767 (R89). -/
def isDuty (v : Int) : Bool := -32768 ≤ v && v ≤ 32767

/-- The operand ranges of R89. -/
def Asm.wf : Asm → Bool
  | .pwmInit => true
  | .pwmFloat => true
  | .pwmLow => true
  | .pwmDuty v => isDuty v
  | .pwmCom => true
  | .adcInit h f => isHandle h && isHandle f
  | .htsReg cb d => isHandle cb && isDelta d
  | .htsUnreg s => isSlot s
  | .htsMod s d => isSlot s && isDelta d
  | .stlReg cb p => isHandle cb && isWord p
  | .stlUnreg s => isSlot s
  | .stlUpd s p => isSlot s && isWord p
  | .stlTs => true
  | .stlElapsed ts thr => isWord ts && isWord thr
  | .brake => true
  | .stop => true

/-- The commands a well-formed line stands for (R89, R90: PWM.BRAKE is PWM.LOW then PWM.COM, PWM.STOP is PWM.FLOAT). -/
def Asm.expand : Asm → List Instr
  | .pwmInit => [.pwmInit]
  | .pwmFloat => [.pwmFloat]
  | .pwmLow => [.pwmLow]
  | .pwmDuty v => [.pwmDuty (BitVec.ofInt 16 v)]
  | .pwmCom => [.pwmCom]
  | .adcInit h f => [.adcInit (BitVec.ofNat 16 h) (BitVec.ofNat 16 f)]
  | .htsReg cb d => [.htsReg (BitVec.ofNat 16 cb) (BitVec.ofNat 16 d)]
  | .htsUnreg s => [.htsUnreg (BitVec.ofNat 8 s)]
  | .htsMod s d => [.htsMod (BitVec.ofNat 8 s) (BitVec.ofNat 16 d)]
  | .stlReg cb p => [.stlReg (BitVec.ofNat 16 cb) (BitVec.ofNat 32 p)]
  | .stlUnreg s => [.stlUnreg (BitVec.ofNat 8 s)]
  | .stlUpd s p => [.stlUpd (BitVec.ofNat 8 s) (BitVec.ofNat 32 p)]
  | .stlTs => [.stlTs]
  | .stlElapsed ts thr => [.stlElapsed (BitVec.ofNat 32 ts) (BitVec.ofNat 32 thr)]
  | .brake => [.pwmLow, .pwmCom]
  | .stop => [.pwmFloat]

/-- The assembler: the commands of a line, or no command at all when an operand is out of range (R89). -/
def Asm.assemble (a : Asm) : Option (List Instr) :=
  if a.wf then some a.expand else none

end Sys2Proof
end

