-- ==== Sys2Proof/Decode.lean ====
section
/-! DEFINITION. From a 96-bit command value to a command (30_encoding.md R80 to R85, R94) and back (R89's canonical
encoding). The decoder is total and rejects by name; the encoder comes after it. -/

namespace Sys2Proof

/-- The fields of format `CW` (R81). -/
structure Fields where
  op : U8
  slot : U8
  cb : U16
  arg0 : U32
  arg1 : U32
deriving DecidableEq, Repr

/-- `op = C[95:88]`, `slot = C[87:80]`, `cb = C[79:64]`, `arg0 = C[63:32]`, `arg1 = C[31:0]` (R81). -/
def fieldsOf (c : Command) : Fields where
  op := c.extractLsb' 88 8
  slot := c.extractLsb' 80 8
  cb := c.extractLsb' 64 16
  arg0 := c.extractLsb' 32 32
  arg1 := c.extractLsb' 0 32

/-- `arg0[15:0]` (R82). -/
def Fields.arg0Low (f : Fields) : U16 := f.arg0.extractLsb' 0 16

/-- Why a command value is no command. -/
inductive Illegal where
  /-- `op` is none of the fourteen opcodes (R84). Raised by `decode`; the machine answers RESP_ILLEGAL. -/
  | illegalOpcode (op : U8)
deriving DecidableEq, Repr

/-- R94 with the operands of R82: only `op` chooses the command, and bits R82 does not name are ignored (R85). -/
def decodeFields (f : Fields) : Except Illegal Instr :=
  match f.op.toNat with
  | 0x10 => .ok .pwmInit
  | 0x11 => .ok .pwmFloat
  | 0x12 => .ok .pwmLow
  | 0x13 => .ok (.pwmDuty f.arg0Low)
  | 0x14 => .ok .pwmCom
  | 0x20 => .ok (.adcInit f.cb f.arg0Low)
  | 0x30 => .ok (.htsReg f.cb f.arg0Low)
  | 0x31 => .ok (.htsUnreg f.slot)
  | 0x32 => .ok (.htsMod f.slot f.arg0Low)
  | 0x40 => .ok (.stlReg f.cb f.arg0)
  | 0x41 => .ok (.stlUnreg f.slot)
  | 0x42 => .ok (.stlUpd f.slot f.arg0)
  | 0x43 => .ok .stlTs
  | 0x44 => .ok (.stlElapsed f.arg0 f.arg1)
  | _ => .error (.illegalOpcode f.op)

/-- `decode(C)`, total on all 2^96 values (R94). -/
def decode (c : Command) : Except Illegal Instr := decodeFields (fieldsOf c)

/-- The command value from its three words, `W0 = C[95:64]` first (R80). -/
def commandOfWords (w0 w1 w2 : U32) : Command := w0 ++ w1 ++ w2

/-- The number of the opcode table as a command value (log entry 13). The table numbers the whole command `C[95:0]`,
so a row of 96 bits is `C` itself; a shorter row is the leading part of `C`, with zeros after it. -/
def commandOfTable (nbits w : Nat) : Command := BitVec.ofNat 96 (w * 2 ^ (96 - nbits))

/-- The command this decoder reads from an opcode-table word, none where it is illegal. -/
def decodeTableWord (nbits w : Nat) : Option Instr :=
  match decode (commandOfTable nbits w) with
  | .ok i => some i
  | .error _ => none

/-- The opcode of a command (R83). -/
def Instr.opcode : Instr → U8
  | .pwmInit => 0x10
  | .pwmFloat => 0x11
  | .pwmLow => 0x12
  | .pwmDuty _ => 0x13
  | .pwmCom => 0x14
  | .adcInit _ _ => 0x20
  | .htsReg _ _ => 0x30
  | .htsUnreg _ => 0x31
  | .htsMod _ _ => 0x32
  | .stlReg _ _ => 0x40
  | .stlUnreg _ => 0x41
  | .stlUpd _ _ => 0x42
  | .stlTs => 0x43
  | .stlElapsed _ _ => 0x44

/-- The canonical fields of a command: named operands as given, everything else zero (R89). -/
def Instr.fields (i : Instr) : Fields :=
  match i with
  | .pwmInit => ⟨i.opcode, 0, 0, 0, 0⟩
  | .pwmFloat => ⟨i.opcode, 0, 0, 0, 0⟩
  | .pwmLow => ⟨i.opcode, 0, 0, 0, 0⟩
  | .pwmDuty value => ⟨i.opcode, 0, 0, value.zeroExtend 32, 0⟩
  | .pwmCom => ⟨i.opcode, 0, 0, 0, 0⟩
  | .adcInit half full => ⟨i.opcode, 0, half, full.zeroExtend 32, 0⟩
  | .htsReg cb delta => ⟨i.opcode, 0, cb, delta.zeroExtend 32, 0⟩
  | .htsUnreg slot => ⟨i.opcode, slot, 0, 0, 0⟩
  | .htsMod slot delta => ⟨i.opcode, slot, 0, delta.zeroExtend 32, 0⟩
  | .stlReg cb period => ⟨i.opcode, 0, cb, period, 0⟩
  | .stlUnreg slot => ⟨i.opcode, slot, 0, 0, 0⟩
  | .stlUpd slot period => ⟨i.opcode, slot, 0, period, 0⟩
  | .stlTs => ⟨i.opcode, 0, 0, 0, 0⟩
  | .stlElapsed ts thr => ⟨i.opcode, 0, 0, ts, thr⟩

/-- The command value with the given fields (R81). -/
def Fields.pack (f : Fields) : Command := f.op ++ f.slot ++ f.cb ++ f.arg0 ++ f.arg1

/-- The canonical encoding (R89). -/
def encode (i : Instr) : Command := i.fields.pack

/-- The bits of `C` that R82 and R83 name for a command: the letters and the fixed bits of its row's `encoding` in
spec/opcode_table.json. -/
def Instr.namedBits : Instr → Command
  | .pwmInit => 0xFF0000000000000000000000
  | .pwmFloat => 0xFF0000000000000000000000
  | .pwmLow => 0xFF0000000000000000000000
  | .pwmDuty _ => 0xFF0000000000FFFF00000000
  | .pwmCom => 0xFF0000000000000000000000
  | .adcInit _ _ => 0xFF00FFFF0000FFFF00000000
  | .htsReg _ _ => 0xFF00FFFF0000FFFF00000000
  | .htsUnreg _ => 0xFFFF00000000000000000000
  | .htsMod _ _ => 0xFFFF00000000FFFF00000000
  | .stlReg _ _ => 0xFF00FFFFFFFFFFFF00000000
  | .stlUnreg _ => 0xFFFF00000000000000000000
  | .stlUpd _ _ => 0xFFFF0000FFFFFFFF00000000
  | .stlTs => 0xFF0000000000000000000000
  | .stlElapsed _ _ => 0xFF000000FFFFFFFFFFFFFFFF

end Sys2Proof
end

