-- ==== Sys2Proof/Config.lean ====
section
/-! DEFINITION. What is fixed for one machine: the legs, the rows of the step table and of the channel-to-slot table,
the parameters of 00_scope.md R8, the values the source fixes (R7), and the model's free constants, which nothing in
Lean can evaluate. -/

namespace Sys2Proof

/-- The legs of the bridge, U = 0, V = 1, W = 2 (R10, 30_encoding.md R92). -/
inductive Leg where
  | u | v | w
deriving DecidableEq, Repr

/-- One value per leg (`N_LEGS` = 3, R7). -/
structure PerLeg (α : Type) where
  u : α
  v : α
  w : α
deriving DecidableEq, Repr

/-- The roles of the legs in one commutation step: `ROLE(s)` of 40_pwm_commutation.md R101. -/
structure Roles where
  hi : Leg
  lo : Leg
  off : Leg
deriving DecidableEq, Repr

/-- What a buffer sample measures (41_adc_pipeline.md R141). -/
inductive Signal where
  | phaseU | phaseV | phaseW | busVoltage | current
deriving DecidableEq, Repr

/-- One row of the channel-to-slot table of 41_adc_pipeline.md R141: the round (1 or 2), the signal, the converter
(ADC 1 or 2). -/
structure AdcSlot where
  round : Nat
  signal : Signal
  adc : Nat
deriving DecidableEq, Repr

/-- What R141's quoted constraints fix of a channel-to-slot table (93_implementation_defined.md U16): index k is in the
half of its round and, as R142 writes a beat, ADC 1 is at the even indices; in each round each ADC reads the three
phases, and the bus voltage and the current are read by some ADC. The order within a round, and which ADC reads which of
the last two, stay open (91_not_in_source.md N9). -/
abbrev AdcSlotsValid (slots : Vector AdcSlot 16) : Prop :=
  (∀ k : Fin 16, (slots.get k).round = k.val / 8 + 1 ∧ (slots.get k).adc = k.val % 2 + 1) ∧
    (∀ round ∈ [1, 2], ∀ adc ∈ [1, 2], ∀ signal ∈ [Signal.phaseU, .phaseV, .phaseW],
      ∃ k, slots.get k = ⟨round, signal, adc⟩) ∧
    ∀ round ∈ [1, 2], ∀ signal ∈ [Signal.busVoltage, .current],
      ∃ k, (slots.get k).round = round ∧ (slots.get k).signal = signal

/-- The parameters of R8 and of decisions D14 and D32. `pwmTop` and `pwmCenter` are u16, `dutyShift` is in 0..15 by
type; `roles` is the step table of R101 and `adcSlots` the channel-to-slot table of 41_adc_pipeline.md R141; the
remaining constraints are `Params.Valid`. -/
structure Params where
  pwmTop : U16
  pwmCenter : U16
  dutyShift : Fin 16
  deadTime : Nat
  roles : Vector Roles 6
  adcSlots : Vector AdcSlot 16
deriving DecidableEq, Repr

/-- R8: 1 <= PWM_TOP, 0 <= PWM_CENTER <= PWM_TOP; and the shape R123 asks of the step table: in every step the
HI, the LO and the OFF leg are three different legs; and R141's constraints on the channel-to-slot table. -/
abbrev Params.Valid (p : Params) : Prop :=
  p.pwmTop ≠ 0 ∧ p.pwmCenter ≤ p.pwmTop ∧
    (∀ s : Fin 6, (p.roles.get s).hi ≠ (p.roles.get s).lo ∧ (p.roles.get s).hi ≠ (p.roles.get s).off ∧
      (p.roles.get s).lo ≠ (p.roles.get s).off) ∧
    AdcSlotsValid p.adcSlots

/-- `HTS_SLOTS` (R7). -/
abbrev Config.htsSlots : Nat := 4

/-- `STL_SLOTS` (R7). -/
abbrev Config.stlSlots : Nat := 5

/-- `BUF_SAMPLES` (R7). -/
abbrev Config.bufSamples : Nat := 16

/-- `N_STEPS` (R7). -/
abbrev Config.nSteps : Nat := 6

/-- `HTS_MIN_DELTA` (R7). -/
abbrev Config.htsMinDelta : U16 := 4

/-- `DEAD_TIME` of "this version" (R7). -/
abbrev Config.deadTime : Nat := 0

/-- FREE VALUE (log entry 5): from it comes PWM_TOP, which R8 leaves to the implementation. -/
opaque Config.freePwmTop : U16

/-- FREE VALUE (log entry 5): from it comes PWM_CENTER (R8). -/
opaque Config.freePwmCenter : U16

/-- FREE VALUE (log entry 5): DUTY_SHIFT (R8). -/
opaque Config.freeDutyShift : Fin 16

/-- FREE VALUE (log entry 4): the n-th arbitrary buffer sample drawn by a RESET (10_state.md R44, decision D36). -/
opaque Config.freeSample : Nat → U16

/-- FREE VALUE (log entry 3): which enabled service runs when nothing in the agenda says so
(60_exceptions.md R205, decision D43). -/
opaque Config.freeService : Nat → Nat

end Sys2Proof
end

