-- ==== Sys2Proof/Machine/Tables.lean ====
section
/-! DEFINITION. The tables the spec prints (the step table of 40_pwm_commutation.md R101, the ADC slot table of
41_adc_pipeline.md R141), the parameters of the machine after reset, and the consumer's view of R148. -/

namespace Sys2Proof.Machine

/-- `ROLE(s)` for s = 0..5 (R101, decision D14): HI leg, LO leg, OFF leg. -/
def roleTable : Vector Roles 6 :=
  #v[⟨.u, .v, .w⟩, ⟨.u, .w, .v⟩, ⟨.v, .w, .u⟩, ⟨.v, .u, .w⟩, ⟨.w, .u, .v⟩, ⟨.w, .v, .u⟩]

/-- The sixteen named slots of R141, index k: this machine's value of `Params.adcSlots` (decision D32, log entry 7). -/
def adcSlotTable : Vector AdcSlot 16 :=
  #v[⟨1, .phaseU, 1⟩, ⟨1, .phaseU, 2⟩, ⟨1, .phaseV, 1⟩, ⟨1, .phaseV, 2⟩,
     ⟨1, .phaseW, 1⟩, ⟨1, .phaseW, 2⟩, ⟨1, .busVoltage, 1⟩, ⟨1, .current, 2⟩,
     ⟨2, .phaseU, 1⟩, ⟨2, .phaseU, 2⟩, ⟨2, .phaseV, 1⟩, ⟨2, .phaseV, 2⟩,
     ⟨2, .phaseW, 1⟩, ⟨2, .phaseW, 2⟩, ⟨2, .busVoltage, 1⟩, ⟨2, .current, 2⟩]

/-- PWM_TOP of this machine: any value R8 allows (1 <= PWM_TOP <= 65535), none fixed (log entry 5). -/
def platformTop : U16 := if Config.freePwmTop = 0 then 1 else Config.freePwmTop

/-- PWM_CENTER of this machine: any value in 0..PWM_TOP (R8), none fixed (log entry 5). -/
def platformCenter : U16 := if Config.freePwmCenter ≤ platformTop then Config.freePwmCenter else platformTop

/-- The parameters the machine has after reset (R7, R8): free within R8's ranges but for DEAD_TIME, which is 0 in
this version, and the two tables, which are R101's and R141's. -/
def platform : Params where
  pwmTop := platformTop
  pwmCenter := platformCenter
  dutyShift := Config.freeDutyShift
  deadTime := Config.deadTime
  roles := roleTable
  adcSlots := adcSlotTable

/-- The same-named slots of R148: the indices at which one signal stands in the first half (`isFull` false) or in the
second half (`isFull` true) of the buffer, by this machine's table (R141, 90_conflicts.md C5). -/
def sameNamedSlots (p : Params) (isFull : Bool) (signal : Signal) : List (Fin 16) :=
  (List.finRange 16).filter fun k =>
    decide ((p.adcSlots.get k).round = if isFull then 2 else 1) && decide ((p.adcSlots.get k).signal = signal)

/-- The consumer's smoothing filter of R148 for one phase, outside the core: integer division, truncating. R148 leaves
the width of `filtered` open; here it is a natural number without a bound (DESIGN CHOICE, log entry 19). -/
def consumerFilter (filtered sample1 sample2 : Nat) : Nat := (filtered * 4 + sample1 + sample2) / 6

end Sys2Proof.Machine
end

