-- ==== Sys2Proof/Machine/State.lean ====
section
/-! DEFINITION. The state of OBLDC2-CORE (10_state.md R20 to R47) as plain data, one record per unit (R43), the
outputs and the step labels, and the state after RESET (R44). -/

namespace Sys2Proof.Machine

/-- The mode of a leg with its code (10_state.md R23, 30_encoding.md R92); code 3 is produced by no rule. -/
inductive Mode where
  | forcedLow | forcedHigh | pwm | reserved
deriving DecidableEq, Repr

/-- Counting direction of the PWM counter (R28). -/
inductive Dir where
  | up | down
deriving DecidableEq, Repr

/-- The side of a leg last commanded on: H is the high-side switch, L the low-side switch (R29). -/
inductive Side where
  | h | l
deriving DecidableEq, Repr

/-- The configuration of one leg: `mode`, main output enable `en`, complementary output enable `nen` (R23, R24). -/
structure LegCfg where
  mode : Mode
  en : Bool
  nen : Bool
deriving DecidableEq, Repr

/-- The state of the PWM commutation engine (R22 to R29). The suffix S is the staged copy, A the active one.
`step` is in 0..5 by type (log entry 9). -/
structure Pce where
  running : Bool
  idle : Bool
  step : Fin 6
  duty : U16
  cfgS : PerLeg LegCfg
  cfgA : PerLeg LegCfg
  cmpS : PerLeg U16
  cmpA : PerLeg U16
  comReq : Bool
  comIrq : Bool
  pceOn : Bool
  moe : Bool
  cnt : U16
  dir : Dir
  side : PerLeg Side
  dtc : PerLeg Nat
deriving DecidableEq, Repr

/-- The state of the ADC acquisition pipeline (R31 to R35). -/
structure Aap where
  acqOn : Bool
  halfCb : Option Handle
  fullCb : Option Handle
  buf : Vector U16 16
  wr : Fin 8
  htIrq : Bool
  tcIrq : Bool
  teIrq : Bool
  errCnt : U32
deriving DecidableEq, Repr

/-- A hardware timer slot with its channel (R37, R38); free exactly when `cb` is `none` (R41). -/
structure HSlot where
  deadline : U16
  delta : U16
  cb : Option Handle
  ie : Bool
  pend : Bool
deriving DecidableEq, Repr

/-- The state of the hardware timer scheduler (R36 to R38). -/
structure Hts where
  hcnt : U16
  slots : Vector HSlot 4
deriving DecidableEq, Repr

/-- A soft timer slot (R40); free exactly when `cb` is `none` (R41). -/
structure SSlot where
  cb : Option Handle
  start : U32
  period : U32
deriving DecidableEq, Repr

/-- The state of the soft timer ladder (R39, R40). -/
structure Stl where
  tick : U32
  slots : Vector SSlot 5
deriving DecidableEq, Repr

/-- The sources of the indicator interface (30_encoding.md R87, 60_exceptions.md R213). -/
inductive Src where
  | com | adcHt | adcTc | adcErr
deriving DecidableEq, Repr

/-- What a step can emit: a command's response word (R86), an indicator event (R213), a callback strobe (R87). -/
inductive Output where
  | response (w : U32)
  | ind (src : Src)
  | cbAdc (h : Handle) (isFull : Bool) (samples : Vector U16 16)
  | cbHts (h : Handle) (slot : Fin 4) (deadline : U16)
  | cbStl (h : Handle) (slot : Fin 5)
deriving DecidableEq, Repr

/-- The step labels of 00_scope.md R6. -/
inductive Label where
  | cmd (c : Command)
  | pwmTick
  | brk
  | svcCom
  | dmaBeat (a1 a2 : U16)
  | dmaErr
  | svcHt
  | svcTc
  | svcTe
  | hcntTick
  | svcHts (i : Fin 4)
  | sysTick
  | reset
deriving DecidableEq, Repr

/-- The whole machine. The four units are the spec's state (R43); the other fields are the model's own: the
parameters no step writes, the labels still to be taken (next first), the outputs so far (oldest first), and how many
free samples and free service choices have been used. -/
structure State where
  params : Params
  pce : Pce
  aap : Aap
  hts : Hts
  stl : Stl
  agenda : List Label
  trace : List Output
  draws : Nat
  choices : Nat
deriving DecidableEq, Repr

/-- Why the machine stops. -/
inductive Fault where
  /-- The agenda asks for a step whose precondition (00_scope.md R6) is false, for example PWM_TICK with
  `pce_on = F`. Raised by `runLabel`; no command raises it. Safe: no run of the spec contains such a step
  (log entry 2). -/
  | stepNotEnabled
deriving DecidableEq, Repr

/-- Why an instruction has no meaning. -/
inductive Refusal where
  /-- An instruction of the opcode table this model gives no meaning. No arm of `exec` raises it. Safe. -/
  | notModelled (mnemonic : String)
deriving DecidableEq, Repr

/-- The outcome of one step. -/
abbrev Result := Host.Outcome State Fault Refusal

/-- The floating leg `(FORCED_LOW, T, F)` every leg has after RESET (R44). -/
def Pce.floatingLeg : LegCfg := ⟨.forcedLow, true, false⟩

/-- PCE after RESET (R44). -/
def Pce.reset (p : Params) : Pce where
  running := false
  idle := true
  step := 0
  duty := 0
  cfgS := ⟨Pce.floatingLeg, Pce.floatingLeg, Pce.floatingLeg⟩
  cfgA := ⟨Pce.floatingLeg, Pce.floatingLeg, Pce.floatingLeg⟩
  cmpS := ⟨p.pwmCenter, p.pwmCenter, p.pwmCenter⟩
  cmpA := ⟨p.pwmCenter, p.pwmCenter, p.pwmCenter⟩
  comReq := false
  comIrq := false
  pceOn := false
  moe := false
  cnt := 0
  dir := .up
  side := ⟨.l, .l, .l⟩
  dtc := ⟨0, 0, 0⟩

/-- Sixteen arbitrary samples, the free values numbered n to n + 15 (R44, decision D36). -/
def freshBuf (n : Nat) : Vector U16 16 :=
  #v[Config.freeSample n, Config.freeSample (n + 1), Config.freeSample (n + 2), Config.freeSample (n + 3),
     Config.freeSample (n + 4), Config.freeSample (n + 5), Config.freeSample (n + 6), Config.freeSample (n + 7),
     Config.freeSample (n + 8), Config.freeSample (n + 9), Config.freeSample (n + 10), Config.freeSample (n + 11),
     Config.freeSample (n + 12), Config.freeSample (n + 13), Config.freeSample (n + 14), Config.freeSample (n + 15)]

/-- AAP after RESET with the buffer the reset drew (R44). -/
def Aap.reset (buf : Vector U16 16) : Aap where
  acqOn := false
  halfCb := none
  fullCb := none
  buf := buf
  wr := 0
  htIrq := false
  tcIrq := false
  teIrq := false
  errCnt := 0

/-- A free slot of the hardware scheduler after RESET (R44). -/
def HSlot.free : HSlot := ⟨0, 0, none, false, false⟩

/-- HTS after RESET (R44). -/
def Hts.reset : Hts := ⟨0, #v[HSlot.free, HSlot.free, HSlot.free, HSlot.free]⟩

/-- A free slot of the soft timer ladder after RESET (R44). -/
def SSlot.free : SSlot := ⟨none, 0, 0⟩

/-- STL after RESET (R44). -/
def Stl.reset : Stl := ⟨0, #v[SSlot.free, SSlot.free, SSlot.free, SSlot.free, SSlot.free]⟩

/-- The state after RESET of a machine with parameters `p` and drawn buffer `buf` (R44, 70_reset_and_hazards.md R230):
nothing waits in the agenda and nothing has been emitted. -/
def State.resetWith (p : Params) (buf : Vector U16 16) : State where
  params := p
  pce := Pce.reset p
  aap := Aap.reset buf
  hts := Hts.reset
  stl := Stl.reset
  agenda := []
  trace := []
  draws := 16
  choices := 0

/-- The machine right after reset (R230): this machine's parameters and the first sixteen free samples. -/
def State.reset : State := State.resetWith platform (freshBuf 0)

end Sys2Proof.Machine
end

