-- ==== Sys2Proof/Machine/Ops.lean ====
section
/-! DEFINITION. The shared operations: per-leg values, the patterns and compare values of PCE, the buffer, the slot
tables, and the two ways a step speaks to the outside (30_encoding.md R86, R87). The core has no trap and no exception
(60_exceptions.md R201, R206, R207), so there is none to take or to return from. -/

namespace Sys2Proof

/-- The value of a leg. -/
def PerLeg.get {α : Type} (x : PerLeg α) : Leg → α
  | .u => x.u
  | .v => x.v
  | .w => x.w

/-- One value per leg from a function of the leg. -/
def PerLeg.ofFn {α : Type} (f : Leg → α) : PerLeg α := ⟨f .u, f .v, f .w⟩

/-- The same value for every leg. -/
def PerLeg.all {α : Type} (a : α) : PerLeg α := ⟨a, a, a⟩

end Sys2Proof

namespace Sys2Proof.Machine

/-- A leg whose two switches are off: `(FORCED_LOW, T, F)` (30_encoding.md R93, 40_pwm_commutation.md R102). -/
def legOff : LegCfg := ⟨.forcedLow, true, false⟩

/-- A leg tied to the negative rail: `(FORCED_LOW, T, T)` (R93, R102). -/
def legLowSide : LegCfg := ⟨.forcedLow, true, true⟩

/-- A switching leg: `(PWM, T, T)` (R93, R101). -/
def legPwm : LegCfg := ⟨.pwm, true, true⟩

/-- `FLOAT` (R102). -/
def cfgFloat : PerLeg LegCfg := PerLeg.all legOff

/-- `LOWSIDE` (R102). -/
def cfgLowSide : PerLeg LegCfg := PerLeg.all legLowSide

/-- `ROLE(s)` of this machine (R101). -/
def roleOf (p : Params) (s : Fin 6) : Roles := p.roles.get s

/-- `PATTERN(s)`: the HI leg and the LO leg switch, the OFF leg floats (R101). -/
def pattern (p : Params) (s : Fin 6) : PerLeg LegCfg :=
  PerLeg.ofFn fun l => if l = (roleOf p s).hi ∨ l = (roleOf p s).lo then legPwm else legOff

/-- The 2-bit code of a mode (R92). -/
def Mode.code : Mode → BitVec 2
  | .forcedLow => 0
  | .forcedHigh => 1
  | .pwm => 2
  | .reserved => 3

/-- The 4-bit value `{mode[1:0], en, nen}` of a leg (R92). -/
def LegCfg.code (c : LegCfg) : BitVec 4 := c.mode.code ++ BitVec.ofBool c.en ++ BitVec.ofBool c.nen

/-- The 12-bit value `{cfg[W], cfg[V], cfg[U]}` of the bridge (R92). -/
def bridgeCode (c : PerLeg LegCfg) : BitVec 12 := c.w.code ++ c.v.code ++ c.u.code

/-- `sat(x)`: clamp to 0..PWM_TOP (00_scope.md R9). -/
def sat (p : Params) (x : Int) : U16 := BitVec.ofInt 16 (min (max x 0) p.pwmTop.toNat)

/-- `q` of `apply_duty`: the duty as a signed number, divided by 2^DUTY_SHIFT, rounded toward zero (R100). -/
def dutyOffset (p : Params) (duty : U16) : Int := duty.toInt.tdiv (2 ^ p.dutyShift.val)

/-- The compare values of `apply_duty` (R100). -/
def compares (p : Params) (duty : U16) (s : Fin 6) : PerLeg U16 :=
  PerLeg.ofFn fun l =>
    if l = (roleOf p s).hi then sat p (p.pwmCenter.toNat + dutyOffset p duty)
    else if l = (roleOf p s).lo then sat p (p.pwmCenter.toNat - dutyOffset p duty)
    else p.pwmCenter

/-- `apply_duty()`: writes the three staged compare registers and nothing else (R100). -/
def Pce.applyDuty (p : Params) (x : Pce) : Pce := { x with cmpS := compares p x.duty x.step }

/-- Stage a bridge configuration: all nine values together (10_state.md R23). -/
def Pce.stage (c : PerLeg LegCfg) (x : Pce) : Pce := { x with cfgS := c }

/-- `emit X(args)`: append an output event to the output trace (R10). -/
def State.emit (o : Output) (s : State) : State := { s with trace := s.trace ++ [o] }

/-- `respond(w)`: the response word of the command being executed (R10, R86). -/
def State.respond (w : U32) (s : State) : State := s.emit (.response w)

/-- Replace PCE's state. -/
def State.withPce (x : Pce) (s : State) : State := { s with pce := x }

/-- Replace AAP's state. -/
def State.withAap (x : Aap) (s : State) : State := { s with aap := x }

/-- Replace HTS's state. -/
def State.withHts (x : Hts) (s : State) : State := { s with hts := x }

/-- Replace STL's state. -/
def State.withStl (x : Stl) (s : State) : State := { s with stl := x }

/-- `RESP_OK` (R86). -/
def respOk : U32 := 0x00000000

/-- `RESP_NOSLOT` (R86, R200): `CapacityExceeded`, the source's -1. -/
def respNoSlot : U32 := 0xFFFFFFFF

/-- `RESP_TOOSHORT` (R86, R200): `IntervalTooShort`. -/
def respTooShort : U32 := 0xFFFFFFFE

/-- `RESP_ILLEGAL` (R84, R86). -/
def respIllegal : U32 := 0xFFFFFFFD

/-- The response of a command whose answer is a boolean (R86). -/
def respBool (b : Bool) : U32 := if b then 1 else 0

/-- One sample of the buffer (10_state.md R32). -/
def readSample (buf : Vector U16 16) (k : Fin 16) : U16 := buf.get k

/-- `MemWrite(2 * b, 2, (a1, a2))`: one DMA beat, ADC 1 at the even index, ADC 2 at the odd one (41_adc_pipeline.md
R142, 20_memory.md R61, R63). -/
def writeBeat (buf : Vector U16 16) (b : Fin 8) (a1 a2 : U16) : Vector U16 16 :=
  (buf.set (2 * b.val) a1 (by omega)).set (2 * b.val + 1) a2 (by omega)

/-- The slot of a hardware timer. -/
def Hts.slot (x : Hts) (i : Fin 4) : HSlot := x.slots.get i

/-- Replace one hardware timer slot. -/
def Hts.setSlot (x : Hts) (i : Fin 4) (t : HSlot) : Hts := { x with slots := x.slots.set i.val t i.isLt }

/-- Apply a function to every hardware timer slot. -/
def Hts.mapSlots (f : HSlot → HSlot) (x : Hts) : Hts :=
  { x with slots := #v[f (x.slot 0), f (x.slot 1), f (x.slot 2), f (x.slot 3)] }

/-- The slot of a soft timer. -/
def Stl.slot (x : Stl) (j : Fin 5) : SSlot := x.slots.get j

/-- Replace one soft timer slot. -/
def Stl.setSlot (x : Stl) (j : Fin 5) (t : SSlot) : Stl := { x with slots := x.slots.set j.val t j.isLt }

/-- Apply a function to every soft timer slot. -/
def Stl.mapSlots (f : SSlot → SSlot) (x : Stl) : Stl :=
  { x with slots := #v[f (x.slot 0), f (x.slot 1), f (x.slot 2), f (x.slot 3), f (x.slot 4)] }

/-- The words of a strobe in the bit-level form of 30_encoding.md R87, which no rule depends on; none for outputs R87
gives no words. -/
def Output.words : Output → List U32
  | .response w => [w]
  | .ind _ => []
  | .cbHts h i d => [h ++ (0 : BitVec 6) ++ BitVec.ofNat 2 i.val ++ (0 : BitVec 8), (0 : BitVec 16) ++ d]
  | .cbStl h j => [h ++ (0 : BitVec 5) ++ BitVec.ofNat 3 j.val ++ (0 : BitVec 8)]
  | .cbAdc h full b =>
    [h ++ (0 : BitVec 15) ++ BitVec.ofBool full, b[1] ++ b[0], b[3] ++ b[2], b[5] ++ b[4], b[7] ++ b[6],
      b[9] ++ b[8], b[11] ++ b[10], b[13] ++ b[12], b[15] ++ b[14]]

end Sys2Proof.Machine
end

