-- ==== Sys2Proof/Machine/Operands.lean ====
section
/-! DEFINITION. What the operands of a command name: a slot id of a timer table (20_memory.md R62), the slot a
registration claims (42_hw_timer_scheduler.md R160, 43_soft_timer_ladder.md R180), and a slot id as a response. The
fields of the command word are taken apart in Sys2Proof/Decode.lean (30_encoding.md R82). -/

namespace Sys2Proof.Machine

/-- The hardware timer slot a slot operand names; none when `slot < 4` fails (R161, R162). -/
def hSlotOf (slot : U8) : Option (Fin 4) := if h : slot.toNat < 4 then some ⟨slot.toNat, h⟩ else none

/-- The soft timer slot a slot operand names; none when `slot < 5` fails (R181, R182). -/
def sSlotOf (slot : U8) : Option (Fin 5) := if h : slot.toNat < 5 then some ⟨slot.toNat, h⟩ else none

/-- The indices of the hardware timer slots, ascending. -/
def hSlotIds : List (Fin 4) := [0, 1, 2, 3]

/-- The indices of the soft timer slots, ascending. -/
def sSlotIds : List (Fin 5) := [0, 1, 2, 3, 4]

/-- The lowest free hardware timer slot, if any (R160, decision D24). -/
def Hts.lowestFree (x : Hts) : Option (Fin 4) := hSlotIds.find? fun i => (x.slot i).cb.isNone

/-- The lowest free soft timer slot, if any: the linear scan of R180. -/
def Stl.lowestFree (x : Stl) : Option (Fin 5) := sSlotIds.find? fun j => (x.slot j).cb.isNone

/-- A slot id as a response word (R86). -/
def respSlot {n : Nat} (i : Fin n) : U32 := BitVec.ofNat 32 i.val

end Sys2Proof.Machine
end

