-- ==== Sys2Proof/Machine/Flags.lean ====
section
/-! DEFINITION. Every one-bit computation of the spec: the reference signal and the commanded side of a leg, the gate
signals, deadline matches, elapsed-time tests, and the preconditions of the steps (00_scope.md R6). -/

namespace Sys2Proof.Machine

/-- The reference signal of a leg (40_pwm_commutation.md R111). -/
def Pce.ref (x : Pce) (l : Leg) : Bool :=
  match (x.cfgA.get l).mode with
  | .forcedLow => false
  | .forcedHigh => true
  | .pwm => decide (x.cnt < x.cmpA.get l)
  | .reserved => false

/-- The side the reference commands (R112). -/
def Pce.want (x : Pce) (l : Leg) : Side := if x.ref l then .h else .l

/-- `hs[l]`: the high-side switch is on (R113). -/
def Pce.hs (x : Pce) (l : Leg) : Bool :=
  x.moe && (x.cfgA.get l).en && x.ref l && decide (x.side.get l = .h) && decide (x.dtc.get l = 0)

/-- `ls[l]`: the low-side switch is on (R113). -/
def Pce.ls (x : Pce) (l : Leg) : Bool :=
  x.moe && (x.cfgA.get l).nen && !x.ref l && decide (x.side.get l = .l) && decide (x.dtc.get l = 0)

/-- The six gate signals as a function of the state, observable after every step (R6, R113): `hs` and `ls`. -/
def State.gates (s : State) : PerLeg Bool × PerLeg Bool := (PerLeg.ofFn s.pce.hs, PerLeg.ofFn s.pce.ls)

/-- A channel whose interrupt is enabled matches the new count, by equality (42_hw_timer_scheduler.md R163). -/
def HSlot.hits (t : HSlot) (hcnt : U16) : Bool := decide (t.deadline = hcnt) && t.ie

/-- `(tick - start) mod 2^32 > period`, strict and unsigned (43_soft_timer_ladder.md R183, R185). -/
def elapsedExceeds (tick start period : U32) : Bool := decide (period < tick - start)

/-- An occupied slot whose elapsed time exceeds its period: it fires (R183). -/
def SSlot.fires (t : SSlot) (tick : U32) : Bool := t.cb.isSome && elapsedExceeds tick t.start t.period

/-- The precondition of each step label (00_scope.md R6 and the rule of the label). -/
def enabled (l : Label) (s : State) : Bool :=
  match l with
  | .cmd _ => true
  | .pwmTick => s.pce.pceOn
  | .brk => true
  | .svcCom => s.pce.comIrq
  | .dmaBeat _ _ => s.aap.acqOn
  | .dmaErr => s.aap.acqOn
  | .svcHt => s.aap.htIrq
  | .svcTc => s.aap.tcIrq
  | .svcTe => s.aap.teIrq
  | .hcntTick => true
  | .svcHts i => (s.hts.slot i).pend
  | .sysTick => true
  | .reset => true

/-- The eight service steps, in the order of the reference schedule (60_exceptions.md R205). -/
def services : List Label :=
  [.svcCom, .svcHts 0, .svcHts 1, .svcHts 2, .svcHts 3, .svcHt, .svcTc, .svcTe]

/-- The service steps whose pending flag is set (R204). -/
def enabledServices (s : State) : List Label := services.filter fun l => enabled l s

end Sys2Proof.Machine
end

