-- ==== Sys2Proof/Machine/Adc.lean ====
section
/-! DEFINITION. AAP, the dual ADC / DMA acquisition pipeline: ADC.INIT (41_adc_pipeline.md R140), the DMA events
(R142, R145) and the three services (R143, R144, R146). -/

namespace Sys2Proof.Machine

/-- ADC.INIT: restart at beat 0, replace the handles, drop pending notifications; `buf` and `err_cnt` stay (R140).
Calibration is complete when the step ends (R149). -/
def execAdcInit (half full : Handle) (s : State) : Result :=
  .next ((s.withAap { s.aap with
    halfCb := some half, fullCb := some full, wr := 0,
    htIrq := false, tcIrq := false, teIrq := false, acqOn := true }).respond respOk)

/-- DMA_BEAT's effect on AAP: the pair is written, then the flag of a completed half is set, then the position
advances modulo 8 (R142, R151). -/
def Aap.beat (a1 a2 : U16) (x : Aap) : Aap :=
  { x with
    buf := writeBeat x.buf x.wr a1 a2
    htIrq := x.htIrq || decide (x.wr = 3)
    tcIrq := x.tcIrq || decide (x.wr = 7)
    wr := x.wr + 1 }

/-- DMA_BEAT(a1, a2) (R142, R150). -/
def doDmaBeat (a1 a2 : U16) (s : State) : State := s.withAap (s.aap.beat a1 a2)

/-- DMA_ERR: the flag only; beats go on (R145). -/
def doDmaErr (s : State) : State := s.withAap { s.aap with teIrq := true }

/-- Emit `CB_ADC` with a snapshot of the whole buffer when a callback is given (R143, R144, 20_memory.md R75). -/
def State.notifyAdc (cb : Option Handle) (isFull : Bool) (s : State) : State :=
  match cb with
  | some h => s.emit (.cbAdc h isFull s.aap.buf)
  | none => s

/-- SVC_HT (R143). -/
def doSvcHt (s : State) : State :=
  ((s.withAap { s.aap with htIrq := false }).emit (.ind .adcHt)).notifyAdc s.aap.halfCb false

/-- SVC_TC (R144). -/
def doSvcTc (s : State) : State :=
  ((s.withAap { s.aap with tcIrq := false }).emit (.ind .adcTc)).notifyAdc s.aap.fullCb true

/-- `min(n + 1, 2^32 - 1)`: the error counter saturates (R146, decision D35). -/
def saturatingSucc (n : U32) : U32 := if n = 0xFFFFFFFF then n else n + 1

/-- SVC_TE (R146). -/
def doSvcTe (s : State) : State :=
  (s.withAap { s.aap with teIrq := false, errCnt := saturatingSucc s.aap.errCnt }).emit (.ind .adcErr)

end Sys2Proof.Machine
end

