-- ==== Sys2Proof/Machine/Hts.lean ====
section
/-! DEFINITION. HTS, the hardware timer scheduler: HTS.REG, HTS.UNREG, HTS.MOD (42_hw_timer_scheduler.md R160 to R162),
the counter (R163) and the channel service (R164). -/

namespace Sys2Proof.Machine

/-- What a registration writes into the slot it claims: armed from the current count, stale match dropped (R160). -/
def claimedHSlot (hcnt : U16) (cb : Handle) (delta : U16) : HSlot where
  deadline := hcnt + delta
  delta := delta
  cb := some cb
  ie := true
  pend := false

/-- HTS.REG: the interval is checked first, then the capacity, then the lowest free slot is claimed (R160). -/
def execHtsReg (cb : Handle) (delta : U16) (s : State) : Result :=
  if delta < Config.htsMinDelta then .next (s.respond respTooShort)
  else
    match s.hts.lowestFree with
    | none => .next (s.respond respNoSlot)
    | some i => .next ((s.withHts (s.hts.setSlot i (claimedHSlot s.hts.hcnt cb delta))).respond (respSlot i))

/-- Apply a function to the slot an operand names; an out-of-range id is ignored (R161, R162). -/
def State.mapHSlot (slot : U8) (f : HSlot → HSlot) (s : State) : State :=
  match hSlotOf slot with
  | some i => s.withHts (s.hts.setSlot i (f (s.hts.slot i)))
  | none => s

/-- HTS.UNREG: free the slot and disable its interrupt; a pending match stays pending (R161). -/
def execHtsUnreg (slot : U8) (s : State) : Result :=
  .next ((s.mapHSlot slot fun t => { t with cb := none, ie := false }).respond respOk)

/-- HTS.MOD: only the step used by later reloads, without any check of `delta` (R162). -/
def execHtsMod (slot : U8) (delta : U16) (s : State) : Result :=
  .next ((s.mapHSlot slot fun t => { t with delta := delta }).respond respOk)

/-- HCNT_TICK's effect on HTS: count modulo 2^16, then match every channel against the new count (R163). -/
def Hts.count (x : Hts) : Hts :=
  { x with hcnt := x.hcnt + 1 }.mapSlots fun t => { t with pend := t.pend || t.hits (x.hcnt + 1) }

/-- HCNT_TICK (R163). -/
def doHcntTick (s : State) : State := s.withHts s.hts.count

/-- SVC_HTS's effect on the slot: clear the match flag, disable the interrupt when the callback is gone, and reload
from the matched deadline in both cases (R164). -/
def HSlot.serviced (t : HSlot) : HSlot :=
  { t with pend := false, ie := t.ie && t.cb.isSome, deadline := t.deadline + t.delta }

/-- The strobe of SVC_HTS(i), with the matched deadline, if the slot has a callback (R164). -/
def State.notifyHts (i : Fin 4) (t : HSlot) (s : State) : State :=
  match t.cb with
  | some h => s.emit (.cbHts h i t.deadline)
  | none => s

/-- SVC_HTS(i) (R164). -/
def doSvcHts (i : Fin 4) (s : State) : State :=
  (s.withHts (s.hts.setSlot i (s.hts.slot i).serviced)).notifyHts i (s.hts.slot i)

end Sys2Proof.Machine
end

