-- ==== Sys2Proof/Machine/Pwm.lean ====
section
/-! DEFINITION. PCE, the PWM commutation engine: the five commands (40_pwm_commutation.md R103 to R107) and the three
hardware steps with UPDATE and the dead-time generator (R108 to R114). -/

namespace Sys2Proof.Machine

/-- The state PWM.INIT leaves (R103): the active registers are loaded directly, not through UPDATE. -/
def Pce.init (p : Params) (x : Pce) : Pce :=
  Pce.applyDuty p
    { x with
      running := false
      idle := true
      step := 0
      duty := 0
      cfgS := cfgFloat
      cfgA := cfgFloat
      cmpA := PerLeg.all p.pwmCenter
      comReq := false
      comIrq := false
      cnt := 0
      dir := .up
      side := PerLeg.all .l
      dtc := PerLeg.all 0
      moe := true
      pceOn := true }

/-- PWM.INIT (R103). -/
def execPwmInit (s : State) : Result :=
  .next ((s.withPce (s.pce.init s.params)).respond respOk)

/-- PWM.FLOAT: stage FLOAT and request the event that applies it (R104). -/
def execPwmFloat (s : State) : Result :=
  .next ((s.withPce { s.pce.stage cfgFloat with comReq := true }).respond respOk)

/-- PWM.LOW: stage LOWSIDE only (R105). -/
def execPwmLow (s : State) : Result :=
  .next ((s.withPce (s.pce.stage cfgLowSide)).respond respOk)

/-- PWM.DUTY: store the duty and recompute the staged compare values (R106). -/
def execPwmDuty (value : U16) (s : State) : Result :=
  .next ((s.withPce (Pce.applyDuty s.params { s.pce with duty := value })).respond respOk)

/-- PWM.COM: request a commutation event (R107). -/
def execPwmCom (s : State) : Result :=
  .next ((s.withPce { s.pce with comReq := true }).respond respOk)

/-- Statement 1 of PWM_TICK: count up to PWM_TOP and down to 0 (R108). -/
def Pce.count (p : Params) (x : Pce) : Pce :=
  match x.dir with
  | .up => { x with cnt := x.cnt + 1, dir := if x.cnt + 1 = p.pwmTop then .down else .up }
  | .down => { x with cnt := x.cnt - 1, dir := if x.cnt - 1 = 0 then .up else .down }

/-- The tick that brings the counter to 0: the period boundary (R108). -/
def Pce.boundary (x : Pce) : Bool := decide (x.dir = .down) && decide (x.cnt - 1 = 0)

/-- UPDATE(): load the compare values; at a commutation event also the configuration, all legs at once (R109). -/
def Pce.update (x : Pce) : Pce :=
  if x.comReq then
    { x with cmpA := x.cmpS, cfgA := x.cfgS, comReq := false, comIrq := true }
  else { x with cmpA := x.cmpS }

/-- The dead-time generator of all legs, one evaluation (R112). -/
def Pce.deadTime (p : Params) (x : Pce) : Pce :=
  { x with
    side := PerLeg.ofFn x.want
    dtc := PerLeg.ofFn fun l => if x.want l ≠ x.side.get l then p.deadTime else x.dtc.get l - 1 }

/-- PWM_TICK's effect on PCE: count, update at the boundary, dead time, in this order (R108). -/
def Pce.tick (p : Params) (x : Pce) : Pce :=
  Pce.deadTime p (if x.boundary then (x.count p).update else x.count p)

/-- PWM_TICK (R108). -/
def doPwmTick (s : State) : State := s.withPce (s.pce.tick s.params)

/-- BRK: the outputs are off from this step on (R114). -/
def doBrk (s : State) : State := s.withPce { s.pce with moe := false }

/-- Statement 3 of SVC_COM: advance and stage the new step, or stage the idle gap (R110, R119). -/
def Pce.advance (p : Params) (x : Pce) : Pce :=
  if x.idle then { x with step := x.step + 1, cfgS := pattern p (x.step + 1), idle := false }
  else { x with cfgS := cfgFloat, idle := true }

/-- SVC_COM's effect on PCE (R110, statements 1 to 4). -/
def Pce.service (p : Params) (x : Pce) : Pce :=
  Pce.applyDuty p (Pce.advance p { x with comIrq := false, running := true })

/-- SVC_COM (R110). -/
def doSvcCom (s : State) : State := (s.withPce (s.pce.service s.params)).emit (.ind .com)

end Sys2Proof.Machine
end

