-- ==== Sys2Proof/Machine/Stl.lean ====
section
/-! DEFINITION. STL, the soft timer ladder: its five commands (43_soft_timer_ladder.md R180 to R182, R184, R185) and
SYS_TICK, the tick and its handler in one step (R183). -/

namespace Sys2Proof.Machine

/-- STL.REG: the lowest free slot, started at the current tick (R180). -/
def execStlReg (cb : Handle) (period : U32) (s : State) : Result :=
  match s.stl.lowestFree with
  | none => .next (s.respond respNoSlot)
  | some j => .next ((s.withStl (s.stl.setSlot j ⟨some cb, s.stl.tick, period⟩)).respond (respSlot j))

/-- Apply a function to the slot an operand names; an out-of-range id is ignored (R181, R182). -/
def State.mapSSlot (slot : U8) (f : SSlot → SSlot) (s : State) : State :=
  match sSlotOf slot with
  | some j => s.withStl (s.stl.setSlot j (f (s.stl.slot j)))
  | none => s

/-- STL.UNREG (R181). -/
def execStlUnreg (slot : U8) (s : State) : Result :=
  .next ((s.mapSSlot slot fun t => { t with cb := none }).respond respOk)

/-- STL.UPD: the period only; the start stays (R182). -/
def execStlUpd (slot : U8) (period : U32) (s : State) : Result :=
  .next ((s.mapSSlot slot fun t => { t with period := period }).respond respOk)

/-- STL.TS (R184). -/
def execStlTs (s : State) : Result := .next (s.respond s.stl.tick)

/-- STL.ELAPSED (R185). -/
def execStlElapsed (ts thr : U32) (s : State) : Result :=
  .next (s.respond (respBool (elapsedExceeds s.stl.tick ts thr)))

/-- A slot after the scan of one tick: rearmed if it fired (R183). -/
def SSlot.scanned (tick : U32) (t : SSlot) : SSlot := if t.fires tick then { t with start := tick } else t

/-- The strobe of one slot in the scan of one tick, if it fires (R183). -/
def SSlot.strobe (tick : U32) (j : Fin 5) (t : SSlot) : List Output :=
  match t.cb with
  | some h => if t.fires tick then [.cbStl h j] else []
  | none => []

/-- SYS_TICK's effect on STL (R183). -/
def Stl.count (x : Stl) : Stl := { x with tick := x.tick + 1 }.mapSlots (SSlot.scanned (x.tick + 1))

/-- The strobes of one tick, in ascending slot order (R183). -/
def Stl.strobes (x : Stl) : List Output := sSlotIds.flatMap fun j => (x.slot j).strobe (x.tick + 1) j

/-- SYS_TICK (R183). -/
def doSysTick (s : State) : State := { s.withStl s.stl.count with trace := s.trace ++ s.stl.strobes }

end Sys2Proof.Machine
end

