-- ==== Sys2Proof/Machine/Dispatch.lean ====
section
/-! DEFINITION. One arm per command (30_encoding.md R83). -/

namespace Sys2Proof.Machine

def exec (i : Instr) (s : State) : Host.Outcome State Fault Refusal :=
  match i with
  | .pwmInit => Sys2Proof.Machine.execPwmInit s
  | .pwmFloat => Sys2Proof.Machine.execPwmFloat s
  | .pwmLow => Sys2Proof.Machine.execPwmLow s
  | .pwmDuty value => Sys2Proof.Machine.execPwmDuty value s
  | .pwmCom => Sys2Proof.Machine.execPwmCom s
  | .adcInit half full => Sys2Proof.Machine.execAdcInit half full s
  | .htsReg cb delta => Sys2Proof.Machine.execHtsReg cb delta s
  | .htsUnreg slot => Sys2Proof.Machine.execHtsUnreg slot s
  | .htsMod slot delta => Sys2Proof.Machine.execHtsMod slot delta s
  | .stlReg cb period => Sys2Proof.Machine.execStlReg cb period s
  | .stlUnreg slot => Sys2Proof.Machine.execStlUnreg slot s
  | .stlUpd slot period => Sys2Proof.Machine.execStlUpd slot period s
  | .stlTs => Sys2Proof.Machine.execStlTs s
  | .stlElapsed ts thr => Sys2Proof.Machine.execStlElapsed ts thr s

end Sys2Proof.Machine
end

