-- ==== Sys2Proof/Machine/Labels.lean ====
section
/-! DEFINITION. The effect of each step label of 00_scope.md R6, and the choice of the next label. -/

namespace Sys2Proof.Machine

/-- CMD(c): decode and execute; an illegal command changes nothing and responds RESP_ILLEGAL (30_encoding.md R84, R94,
60_exceptions.md R216). -/
def doCmd (c : Command) (s : State) : Result :=
  match decode c with
  | .ok i => exec i s
  | .error (.illegalOpcode _) => .next (s.respond respIllegal)

/-- RESET: every state variable of the four units to the table of 10_state.md R44, with sixteen new arbitrary samples;
nothing is emitted (70_reset_and_hazards.md R230). The parameters, the agenda and the trace are not state of the core. -/
def doReset (s : State) : State :=
  { State.resetWith s.params (freshBuf s.draws) with
    agenda := s.agenda, trace := s.trace, draws := s.draws + 16, choices := s.choices }

/-- The effect of an enabled label. -/
def perform (l : Label) (s : State) : Result :=
  match l with
  | .cmd c => doCmd c s
  | .pwmTick => .next (doPwmTick s)
  | .brk => .next (doBrk s)
  | .svcCom => .next (doSvcCom s)
  | .dmaBeat a1 a2 => .next (doDmaBeat a1 a2 s)
  | .dmaErr => .next (doDmaErr s)
  | .svcHt => .next (doSvcHt s)
  | .svcTc => .next (doSvcTc s)
  | .svcTe => .next (doSvcTe s)
  | .hcntTick => .next (doHcntTick s)
  | .svcHts i => .next (doSvcHts i s)
  | .sysTick => .next (doSysTick s)
  | .reset => .next (doReset s)

/-- One atomic step with a given label: its effect where it is enabled (R6), the fault where it is not (log entry 2). -/
def runLabel (l : Label) (s : State) : Result :=
  if enabled l s then perform l s else .fault .stepNotEnabled

/-- The service that runs when the agenda is empty: a free choice among the enabled ones (60_exceptions.md R205). -/
def chooseService (n : Nat) (first : Label) (rest : List Label) : Label :=
  match rest with
  | [] => first
  | _ :: _ => (first :: rest).getD (Config.freeService n % (first :: rest).length) first

/-- The agenda is empty: an enabled service is taken (fairness, 70_reset_and_hazards.md R250); with none enabled the
run has ended (R6) and the machine waits unchanged (log entry 3). -/
def idleStep (s : State) : Result :=
  match enabledServices s with
  | [] => .next s
  | first :: rest => runLabel (chooseService s.choices first rest) { s with choices := s.choices + 1 }

end Sys2Proof.Machine
end

