-- ==== Sys2Proof/Machine/Step.lean ====
section
/-! DEFINITION. One step of the machine (00_scope.md R6): the next label of the agenda is taken. -/

namespace Sys2Proof.Machine

/-- Take the next label of the agenda; when there is none, see `idleStep`. -/
def step (s : State) : Host.Outcome State Fault Refusal :=
  match s.agenda with
  | [] => idleStep s
  | l :: rest => runLabel l { s with agenda := rest }

/-- `s` with the command of an opcode-table word at the head of the agenda, so that the very next step executes it
(log entry 12). -/
def State.withFetchWord (s : State) (nbits w : Nat) : State :=
  { s with agenda := .cmd (commandOfTable nbits w) :: s.agenda }

end Sys2Proof.Machine
end

