-- ==== Sys2Proof/Safety.lean ====
section
/-! DEFINITION. The terms claims are stated in: the invariants of 10_state.md R47 and 40_pwm_commutation.md R108 and R125,
shoot-through (R115), the tick-free view of PCE (R120), the unit a label belongs to (R43), and filters of the trace. -/

namespace Sys2Proof.Machine

/-- A bridge configuration in which no leg switches: FLOAT or LOWSIDE (R102). -/
abbrev isStill (c : PerLeg LegCfg) : Prop := c = cfgFloat ∨ c = cfgLowSide

/-- The invariants of PCE. -/
structure Pce.Inv (p : Params) (x : Pce) : Prop where
  /-- The staged compare values are always those of the present duty and step (R100, R118). -/
  cmpS_current : x.cmpS = compares p x.duty x.step
  /-- Compare values are in 0..PWM_TOP (R47 d). -/
  cmpA_le : ∀ l, x.cmpA.get l ≤ p.pwmTop
  /-- The staged configuration is FLOAT, LOWSIDE or, when the last service advanced, the pattern of the present step
  (R47 c, R22). -/
  staged : isStill x.cfgS ∨ (x.idle = false ∧ x.cfgS = pattern p x.step)
  /-- The active configuration is FLOAT, LOWSIDE or the pattern of the present step with compare values computed under
  that step (R47 c, R125). -/
  active : isStill x.cfgA ∨ (x.cfgA = pattern p x.step ∧ ∃ d, x.cmpA = compares p d x.step)
  /-- A service that is about to advance finds the bridge still (R125). -/
  advance_still : x.comIrq = true → x.idle = true → isStill x.cfgA
  /-- R47 h. -/
  comIrq_on : x.comIrq = true → x.pceOn = true
  /-- R108: UP implies cnt < PWM_TOP. -/
  up_lt : x.dir = .up → x.cnt < p.pwmTop
  /-- R108: DOWN implies cnt > 0; and R47 e. -/
  down_pos : x.dir = .down → 0 < x.cnt ∧ x.cnt ≤ p.pwmTop
  /-- R47 e. -/
  dtc_le : ∀ l, x.dtc.get l ≤ p.deadTime
  /-- Before PWM.INIT the outputs are off and the bridge floats (70_reset_and_hazards.md R243). -/
  off : x.pceOn = false → x.moe = false ∧ x.cfgA = cfgFloat

/-- The invariants of AAP: notifications and callbacks exist only once acquisition is on (41_adc_pipeline.md R143). -/
structure Aap.Inv (x : Aap) : Prop where
  on : x.acqOn = true → x.halfCb.isSome = true ∧ x.fullCb.isSome = true
  off : x.acqOn = false →
    x.halfCb = none ∧ x.fullCb = none ∧ x.htIrq = false ∧ x.tcIrq = false ∧ x.teIrq = false

/-- A free hardware timer slot has its interrupt disabled (R47 g). -/
def Hts.Inv (x : Hts) : Prop := ∀ i, (x.slot i).cb = none → (x.slot i).ie = false

/-- The invariant of the machine (R47). -/
structure Inv (s : State) : Prop where
  params : s.params.Valid
  pce : s.pce.Inv s.params
  aap : s.aap.Inv
  hts : s.hts.Inv

/-- Both switches of a leg on at once (R115). -/
def State.shootThrough (s : State) (l : Leg) : Bool := s.pce.hs l && s.pce.ls l

/-- PCE without the state the tick-free abstraction drops: `cnt`, `dir`, `side`, `dtc` (R120). -/
def Pce.tickFree (x : Pce) : Pce :=
  { x with cnt := 0, dir := .up, side := PerLeg.all .l, dtc := PerLeg.all 0 }

/-- The four units (00_scope.md R2). -/
inductive CoreUnit where
  | pce | aap | hts | stl
deriving DecidableEq, Repr

/-- The unit an executed command belongs to: `op[7:4]` (30_encoding.md R81). -/
def unitOfInstr : Instr → CoreUnit
  | .pwmInit => .pce
  | .pwmFloat => .pce
  | .pwmLow => .pce
  | .pwmDuty _ => .pce
  | .pwmCom => .pce
  | .adcInit _ _ => .aap
  | .htsReg _ _ => .hts
  | .htsUnreg _ => .hts
  | .htsMod _ _ => .hts
  | .stlReg _ _ => .stl
  | .stlUnreg _ => .stl
  | .stlUpd _ _ => .stl
  | .stlTs => .stl
  | .stlElapsed _ _ => .stl

/-- The unit a label belongs to (R6, R43); none for RESET and for an illegal command. -/
def unitOf : Label → Option CoreUnit
  | .cmd c =>
    match decode c with
    | .ok i => some (unitOfInstr i)
    | .error _ => none
  | .pwmTick => some .pce
  | .brk => some .pce
  | .svcCom => some .pce
  | .dmaBeat _ _ => some .aap
  | .dmaErr => some .aap
  | .svcHt => some .aap
  | .svcTc => some .aap
  | .svcTe => some .aap
  | .hcntTick => some .hts
  | .svcHts _ => some .hts
  | .sysTick => some .stl
  | .reset => none

/-- The input events of the environment: neither a command, nor a service, nor RESET (R6). -/
def isInputEvent : Label → Bool
  | .cmd _ => false
  | .pwmTick => true
  | .brk => true
  | .svcCom => false
  | .dmaBeat _ _ => true
  | .dmaErr => true
  | .svcHt => false
  | .svcTc => false
  | .svcTe => false
  | .hcntTick => true
  | .svcHts _ => false
  | .sysTick => true
  | .reset => false

/-- An output is a strobe of soft timer slot `j`. -/
def Output.isStlStrobe (j : Fin 5) : Output → Bool
  | .cbStl _ k => k == j
  | .response _ => false
  | .ind _ => false
  | .cbAdc _ _ _ => false
  | .cbHts _ _ _ => false

/-- The strobes of soft timer slot `j` emitted so far. -/
def State.stlStrobes (j : Fin 5) (s : State) : List Output := s.trace.filter (Output.isStlStrobe j)

/-- How many service steps are pending. -/
def State.pendingCount (s : State) : Nat := (enabledServices s).length

/-- Run labels one after another, stopping at the first that is not enabled (a run of R6 with its labels given). -/
def runLabels : List Label → State → Result
  | [], s => .next s
  | l :: ls, s =>
    match runLabel l s with
    | .next t => runLabels ls t
    | .fault r => .fault r
    | .refused r => .refused r

/-- One commutation of the environment of R117, tick by tick: request an event, let one PWM period pass
(2 * PWM_TOP ticks, R108), let the service run. -/
def commutationRound (p : Params) : List Label :=
  .cmd (encode .pwmCom) :: (List.replicate (2 * p.pwmTop.toNat) .pwmTick ++ [.svcCom])

/-- The environment of 42_hw_timer_scheduler.md R168 for slot `i` with period `delta`: `ahead` ticks bring the counter
to the deadline, the service runs `late` ticks after the match, and so on for each lateness in the list. -/
def htsRounds (i : Fin 4) (delta : Nat) : Nat → List Nat → List Label
  | _, [] => []
  | ahead, late :: rest =>
    List.replicate (ahead + late) .hcntTick ++ .svcHts i :: htsRounds i delta (delta - late) rest

end Sys2Proof.Machine
end

