-- ==== Sys2Proof/Certificates/Slice0/Obligations.lean ====
section
/-! DEFINITION. The statements for the provers, one per entry of OBLIGATIONS.json. Each docstring names the rule of
spec/ it formalises. -/

open Sys2Proof Sys2Proof.Machine

/-! ## Encoding -/

/-- 30_encoding.md R81, R82, R83, R89: decoding the canonical encoding of any command, with any operands, gives the
command back. -/
def Obligations.DecodeOfEncodeIsTheCommand : Prop :=
  ∀ i : Instr, decode (encode i) = .ok i

/-- R82, R85, R89: the canonical encoding of what a command word decodes to is that word with every bit R82 does not
name cleared. -/
def Obligations.EncodeOfDecodeKeepsTheNamedBits : Prop :=
  ∀ (c : Command) (i : Instr), decode c = .ok i → encode i = c &&& i.namedBits

/-- R85: two command words that agree on the bits R82 names for the command have the same effect and response in
every state, and the canonical encoding has zeros in all other bits. -/
def Obligations.IgnoredBitsDoNotMatter : Prop :=
  (∀ (c c' : Command) (i : Instr) (s : State), decode c = .ok i → c' &&& i.namedBits = c &&& i.namedBits →
    runLabel (.cmd c') s = runLabel (.cmd c) s) ∧
  ∀ i : Instr, encode i &&& i.namedBits = encode i

/-- R84: a command is illegal exactly when its `op` is none of the fourteen opcodes of R83, and an illegal command
changes no state, emits no output and responds 0xFFFFFFFD. -/
def Obligations.IllegalCommandsOnlyRespond : Prop :=
  ∀ c : Command,
    ((∃ e, decode c = .error e) ↔
      c.extractLsb' 88 8 ∉ ([0x10, 0x11, 0x12, 0x13, 0x14, 0x20, 0x30, 0x31, 0x32, 0x40, 0x41, 0x42, 0x43, 0x44] :
        List U8)) ∧
    ((∃ e, decode c = .error e) → ∀ s : State,
      runLabel (.cmd c) s = .next { s with trace := s.trace ++ [.response 0xFFFFFFFD] })

/-- 95_test_vectors.md B1: words of the spec's encoding table decode to the commands they stand for, a word of each
unit, ignored bits and illegal opcodes among them. -/
def Obligations.SpecWordsDecode : Prop :=
  decode 0x130000000000FC0000000000 = .ok (.pwmDuty (BitVec.ofInt 16 (-1024))) ∧
  decode 0x13FFFFFFFFFFFC00DEADBEEF = .ok (.pwmDuty (BitVec.ofInt 16 (-1024))) ∧
  decode 0x200000A1000000A200000000 = .ok (.adcInit 0x00A1 0x00A2) ∧
  decode 0x300000B10000000400000000 = .ok (.htsReg 0x00B1 4) ∧
  decode 0x31FF00000000000000000000 = .ok (.htsUnreg 255) ∧
  decode 0x42010000000000FA00000000 = .ok (.stlUpd 1 250) ∧
  decode 0x44000000FFFFFFFE00000004 = .ok (.stlElapsed 0xFFFFFFFE 4) ∧
  decode 0x000000000000000000000000 = .error (.illegalOpcode 0x00) ∧
  decode 0x330000000000000000000000 = .error (.illegalOpcode 0x33)

/-! ## Steps -/

/-- 00_scope.md R6, 30_encoding.md R94: when the next label is a command that decodes to `i`, the step is `exec i` in
the state with that label taken off the agenda (the agenda is the model's choice, log entry 1). -/
def Obligations.StepRunsTheDecodedCommand : Prop :=
  ∀ (s : State) (c : Command) (rest : List Label) (i : Instr), s.agenda = .cmd c :: rest → decode c = .ok i →
    step s = exec i { s with agenda := rest }

/-- R6 and the "Enabled exactly when" of each rule: the next label is taken exactly when its precondition holds, and
is the model's fault otherwise (log entry 2). -/
def Obligations.StepTakesExactlyTheEnabledLabels : Prop :=
  ∀ (s : State) (l : Label) (rest : List Label), s.agenda = l :: rest →
    let pre : Prop :=
      match l with
      | .cmd _ => True
      | .pwmTick => s.pce.pceOn = true
      | .brk => True
      | .svcCom => s.pce.comIrq = true
      | .dmaBeat _ _ => s.aap.acqOn = true
      | .dmaErr => s.aap.acqOn = true
      | .svcHt => s.aap.htIrq = true
      | .svcTc => s.aap.tcIrq = true
      | .svcTe => s.aap.teIrq = true
      | .hcntTick => True
      | .svcHts i => (s.hts.slot i).pend = true
      | .sysTick => True
      | .reset => True
    ((∃ t, step s = .next t) ↔ pre) ∧ (step s = .fault .stepNotEnabled ↔ ¬ pre)

/-- R6, 20_memory.md R66: a run of labels given in the agenda is the labels taken one after another, whatever the
agenda holds behind them: no label reads or writes the agenda (the agenda is the model's choice, log entry 1). -/
def Obligations.AgendaIsTakenInOrder : Prop :=
  ∀ (ls rest : List Label) (s t : State), runLabels ls s = .next t →
    Host.Core.run core ls.length { s with agenda := ls ++ rest } = .next { t with agenda := rest }

/-- 30_encoding.md R86, 20_memory.md R66 (b), 60_exceptions.md R201: every command word, legal or not, completes in
every state, in its own step, with exactly one response word and no other output. That the agenda and the parameters
stay is the model's choice (log entries 1 and 5). -/
def Obligations.EveryCommandRespondsOnce : Prop :=
  ∀ (c : Command) (s : State), ∃ (t : State) (w : U32),
    runLabel (.cmd c) s = .next t ∧ t.trace = s.trace ++ [.response w] ∧ t.agenda = s.agenda ∧
      t.params = s.params

/-- 10_state.md R43, R42: a label writes only the unit it belongs to (RESET aside), never the parameters or the
agenda, and outputs are only appended. -/
def Obligations.EachUnitIsWrittenByItsOwnLabels : Prop :=
  ∀ (l : Label) (s t : State), runLabel l s = .next t →
    (l ≠ .reset →
      (unitOf l ≠ some .pce → t.pce = s.pce) ∧ (unitOf l ≠ some .aap → t.aap = s.aap) ∧
      (unitOf l ≠ some .hts → t.hts = s.hts) ∧ (unitOf l ≠ some .stl → t.stl = s.stl)) ∧
    t.params = s.params ∧ t.agenda = s.agenda ∧ s.trace <+: t.trace

/-- 60_exceptions.md R208: two input events of different units may be taken in either order with the same result. -/
def Obligations.InputEventsOfTwoUnitsCommute : Prop :=
  ∀ (l m : Label) (s t : State), isInputEvent l = true → isInputEvent m = true → unitOf l ≠ unitOf m →
    runLabels [l, m] s = .next t → runLabels [m, l] s = .next t

/-- 70_reset_and_hazards.md R250 (a), 60_exceptions.md R204, R205: with nothing in the agenda a step has the effect of
one of the pending services, whichever the free choice picks; as many steps as there are pending services take each of
them once, in some order, and leave none pending; then the machine waits unchanged. The idle behaviour, and the counter
`choices` of the choices made, are the model's (log entry 3). -/
def Obligations.PendingServicesAreTaken : Prop :=
  ∀ s : State, s.agenda = [] →
    (s.pendingCount = 0 → step s = .next s) ∧
    (0 < s.pendingCount → ∃ l ∈ enabledServices s, ∃ t, step s = .next t ∧
      runLabel l { s with choices := s.choices + 1 } = .next t ∧ t.agenda = [] ∧
      t.pendingCount + 1 = s.pendingCount) ∧
    ∃ (order : List Label) (t : State), order.Perm (enabledServices s) ∧ runLabels order s = .next t ∧
      t.pendingCount = 0 ∧
      Host.Core.run core s.pendingCount s = .next { t with choices := s.choices + s.pendingCount }

/-- 10_state.md R44, 70_reset_and_hazards.md R230: RESET puts every state variable to its reset value but for the
buffer, which it draws from the free values not used before (log entry 4), and emits nothing; the parameters, the
agenda and the trace are not state of the core. -/
def Obligations.ResetPutsTheResetValues : Prop :=
  ∀ s : State, ∃ t, runLabel .reset s = .next t ∧
    t.pce = {
      running := false, idle := true, step := 0, duty := 0,
      cfgS := PerLeg.all ⟨.forcedLow, true, false⟩, cfgA := PerLeg.all ⟨.forcedLow, true, false⟩,
      cmpS := PerLeg.all s.params.pwmCenter, cmpA := PerLeg.all s.params.pwmCenter,
      comReq := false, comIrq := false, pceOn := false, moe := false, cnt := 0, dir := .up,
      side := PerLeg.all .l, dtc := PerLeg.all 0 } ∧
    t.aap = {
      acqOn := false, halfCb := none, fullCb := none, buf := t.aap.buf, wr := 0,
      htIrq := false, tcIrq := false, teIrq := false, errCnt := 0 } ∧
    (∀ k : Fin 16, readSample t.aap.buf k = Config.freeSample (s.draws + k.val)) ∧ t.draws = s.draws + 16 ∧
    t.hts.hcnt = 0 ∧ (∀ i, t.hts.slot i = ⟨0, 0, none, false, false⟩) ∧
    t.stl.tick = 0 ∧ (∀ j, t.stl.slot j = ⟨none, 0, 0⟩) ∧
    (∀ l, t.pce.hs l = false ∧ t.pce.ls l = false) ∧
    t.params = s.params ∧ t.agenda = s.agenda ∧ t.trace = s.trace ∧ t.choices = s.choices

/-! ## Invariants -/

/-- 10_state.md R47, R44: the invariants hold right after reset, whatever the free parameters are (the model's choice,
log entries 5 to 7). -/
def Obligations.InvariantsHoldAtReset : Prop := Inv State.reset

/-- R47, 40_pwm_commutation.md R125: every step keeps the invariants, from every state that meets them. -/
def Obligations.EveryStepKeepsTheInvariants : Prop :=
  ∀ s t : State, Inv s → step s = .next t → Inv t

/-- R47 (b) to (e), (g), (h) and 30_encoding.md R93: what the invariants say of the registers; with the step table of
R101 both bridge configurations are one of five values. -/
def Obligations.InvariantsBoundTheRegisters : Prop :=
  ∀ s : State, Inv s →
    (∀ l, (s.pce.cfgS.get l).mode ∈ [Mode.forcedLow, Mode.pwm] ∧ (s.pce.cfgA.get l).mode ∈ [Mode.forcedLow, Mode.pwm]) ∧
    (s.params.roles = roleTable →
      bridgeCode s.pce.cfgS ∈ ([0x222, 0x333, 0x2BB, 0xB2B, 0xBB2] : List (BitVec 12)) ∧
      bridgeCode s.pce.cfgA ∈ ([0x222, 0x333, 0x2BB, 0xB2B, 0xBB2] : List (BitVec 12))) ∧
    (∀ l, s.pce.cmpS.get l ≤ s.params.pwmTop ∧ s.pce.cmpA.get l ≤ s.params.pwmTop ∧
      s.pce.dtc.get l ≤ s.params.deadTime) ∧
    s.pce.cnt ≤ s.params.pwmTop ∧
    (∀ i, (s.hts.slot i).cb = none → (s.hts.slot i).ie = false) ∧
    (s.pce.comIrq = true → s.pce.pceOn = true) ∧
    (s.aap.htIrq = true → s.aap.halfCb.isSome = true) ∧ (s.aap.tcIrq = true → s.aap.fullCb.isSome = true)

/-- 40_pwm_commutation.md R125: whenever a leg of the active configuration switches, the two switching legs are the HI
and the LO leg of the present step, and the active compare values were computed under that step. -/
def Obligations.SwitchingLegsAreThoseOfTheStep : Prop :=
  ∀ s : State, Inv s → (∃ l, (s.pce.cfgA.get l).mode = .pwm) →
    (∀ l, (s.pce.cfgA.get l).mode = .pwm ↔
      l = (roleOf s.params s.pce.step).hi ∨ l = (roleOf s.params s.pce.step).lo) ∧
    ∃ d : U16, s.pce.cmpA = compares s.params d s.pce.step

/-! ## PCE: commands -/

/-- R100: `apply_duty` writes the three staged compare registers and nothing else; the HI leg gets the centre plus `q
= sign(duty) * (|duty| >> DUTY_SHIFT)`, the LO leg the centre minus `q`, both clamped to 0..PWM_TOP, the OFF leg the
centre. -/
def Obligations.ApplyDutySaturates : Prop :=
  ∀ (p : Params) (x : Pce), p.Valid →
    let q : Int := x.duty.toInt.sign * ((x.duty.toInt.natAbs >>> p.dutyShift.val : Nat) : Int)
    let r := roleOf p x.step
    let t := Pce.applyDuty p x
    ((t.cmpS.get r.hi).toNat : Int) = min (max (p.pwmCenter.toNat + q) 0) p.pwmTop.toNat ∧
    ((t.cmpS.get r.lo).toNat : Int) = min (max (p.pwmCenter.toNat - q) 0) p.pwmTop.toNat ∧
    t.cmpS.get r.off = p.pwmCenter ∧
    t = { x with cmpS := t.cmpS }

/-- R103: PWM.INIT. The premise is the invariant's (the centre is in 0..PWM_TOP). -/
def Obligations.PwmInitFloatsTheBridge : Prop :=
  (∀ c : Command, c.extractLsb' 88 8 = 0x10 → decode c = .ok .pwmInit) ∧
  ∀ s : State, s.params.Valid →
    ∃ t, exec .pwmInit s = .next t ∧
      t = { s with
        pce := {
          running := false, idle := true, step := 0, duty := 0,
          cfgS := PerLeg.all ⟨.forcedLow, true, false⟩, cfgA := PerLeg.all ⟨.forcedLow, true, false⟩,
          cmpS := PerLeg.all s.params.pwmCenter, cmpA := PerLeg.all s.params.pwmCenter,
          comReq := false, comIrq := false, pceOn := true, moe := true, cnt := 0, dir := .up,
          side := PerLeg.all .l, dtc := PerLeg.all 0 }
        trace := s.trace ++ [.response 0] } ∧
      ∀ l, t.pce.hs l = false ∧ t.pce.ls l = false

/-- R104: PWM.FLOAT stages FLOAT, requests an event and changes nothing else. -/
def Obligations.PwmFloatStagesAndRequests : Prop :=
  (∀ c : Command, c.extractLsb' 88 8 = 0x11 → decode c = .ok .pwmFloat) ∧
  ∀ s : State, exec .pwmFloat s = .next { s with
    pce := { s.pce with cfgS := PerLeg.all ⟨.forcedLow, true, false⟩, comReq := true }
    trace := s.trace ++ [.response 0] }

/-- R105: PWM.LOW stages LOWSIDE and changes nothing else. -/
def Obligations.PwmLowOnlyStages : Prop :=
  (∀ c : Command, c.extractLsb' 88 8 = 0x12 → decode c = .ok .pwmLow) ∧
  ∀ s : State, exec .pwmLow s = .next { s with
    pce := { s.pce with cfgS := PerLeg.all ⟨.forcedLow, true, true⟩ }
    trace := s.trace ++ [.response 0] }

/-- R106, R100, R118, R121: PWM.DUTY stores the duty and recomputes the staged compare values under the present step,
with the saturation of R100; nothing else changes, and a second PWM.DUTY with the same value changes only the trace.
-/
def Obligations.PwmDutyStagesTheCompareValues : Prop :=
  (∀ c : Command, c.extractLsb' 88 8 = 0x13 → decode c = .ok (.pwmDuty (c.extractLsb' 32 16))) ∧
  ∀ (s : State) (v : U16), s.params.Valid →
    let q : Int := v.toInt.sign * ((v.toInt.natAbs >>> s.params.dutyShift.val : Nat) : Int)
    let r := roleOf s.params s.pce.step
    ∃ t, exec (.pwmDuty v) s = .next t ∧
      t = { s with
        pce := { s.pce with duty := v, cmpS := t.pce.cmpS }
        trace := s.trace ++ [.response 0] } ∧
      ((t.pce.cmpS.get r.hi).toNat : Int) = min (max (s.params.pwmCenter.toNat + q) 0) s.params.pwmTop.toNat ∧
      ((t.pce.cmpS.get r.lo).toNat : Int) = min (max (s.params.pwmCenter.toNat - q) 0) s.params.pwmTop.toNat ∧
      t.pce.cmpS.get r.off = s.params.pwmCenter ∧
      exec (.pwmDuty v) t = .next { t with trace := t.trace ++ [.response 0] }

/-- R107: PWM.COM sets the request and changes nothing else. Two of them before one UPDATE give one commutation event:
the second changes only the trace, and the UPDATE that honours the request clears it, so the UPDATE after it is none. -/
def Obligations.PwmComOnlyRequests : Prop :=
  (∀ c : Command, c.extractLsb' 88 8 = 0x14 → decode c = .ok .pwmCom) ∧
  ∀ s : State, exec .pwmCom s = .next { s with
    pce := { s.pce with comReq := true }
    trace := s.trace ++ [.response 0] } ∧
  ∃ t u, exec .pwmCom s = .next t ∧ exec .pwmCom t = .next u ∧ u.pce = t.pce ∧
    u.pce.update = { s.pce with cmpA := s.pce.cmpS, cfgA := s.pce.cfgS, comReq := false, comIrq := true } ∧
    u.pce.update.update = u.pce.update

/-! ## PCE: hardware steps and outputs -/

/-- R108, R109, R112: PWM_TICK is enabled exactly when `pce_on`; one PWM_TICK counts, updates at the period boundary
and evaluates the dead-time generator with the new counter and the new active registers, in this order. -/
def Obligations.PwmTickCountsUpdatesAndDelays : Prop :=
  ∀ s : State, Inv s → ((∃ t, runLabel .pwmTick s = .next t) ↔ s.pce.pceOn = true) ∧ (s.pce.pceOn = true →
    ∃ t, runLabel .pwmTick s = .next t ∧
      t = { s with pce := { s.pce with
        cnt := t.pce.cnt, dir := t.pce.dir, cmpA := t.pce.cmpA, cfgA := t.pce.cfgA, comReq := t.pce.comReq,
        comIrq := t.pce.comIrq, side := t.pce.side, dtc := t.pce.dtc } } ∧
      (s.pce.dir = .up →
        t.pce.cnt.toNat = s.pce.cnt.toNat + 1 ∧
        t.pce.dir = (if s.pce.cnt.toNat + 1 = s.params.pwmTop.toNat then .down else .up)) ∧
      (s.pce.dir = .down →
        t.pce.cnt.toNat + 1 = s.pce.cnt.toNat ∧ t.pce.dir = (if s.pce.cnt.toNat = 1 then .up else .down)) ∧
      (s.pce.dir = .down ∧ s.pce.cnt.toNat = 1 →
        t.pce.cmpA = s.pce.cmpS ∧
        (s.pce.comReq = true → t.pce.cfgA = s.pce.cfgS ∧ t.pce.comReq = false ∧ t.pce.comIrq = true) ∧
        (s.pce.comReq = false →
          t.pce.cfgA = s.pce.cfgA ∧ t.pce.comReq = false ∧ t.pce.comIrq = s.pce.comIrq)) ∧
      (¬ (s.pce.dir = .down ∧ s.pce.cnt.toNat = 1) →
        t.pce.cmpA = s.pce.cmpA ∧ t.pce.cfgA = s.pce.cfgA ∧ t.pce.comReq = s.pce.comReq ∧
        t.pce.comIrq = s.pce.comIrq) ∧
      ∀ l, t.pce.side.get l = (if t.pce.ref l then .h else .l) ∧
        t.pce.dtc.get l =
          (if t.pce.side.get l ≠ s.pce.side.get l then s.params.deadTime else s.pce.dtc.get l - 1))

/-- R111, R113: the reference signal by mode; when each switch of a leg is on; the gate signals of the four leg
configurations with the outputs enabled and no dead time running; with the outputs disabled every gate signal is off.
-/
def Obligations.GateSignalsOfEachConfiguration : Prop :=
  ∀ (x : Pce) (l : Leg),
    x.ref l = (match (x.cfgA.get l).mode with
      | .forcedLow => false
      | .forcedHigh => true
      | .pwm => decide (x.cnt.toNat < (x.cmpA.get l).toNat)
      | .reserved => false) ∧
    (x.hs l = true ↔ x.moe = true ∧ (x.cfgA.get l).en = true ∧ x.ref l = true ∧ x.side.get l = .h ∧ x.dtc.get l = 0) ∧
    (x.ls l = true ↔
      x.moe = true ∧ (x.cfgA.get l).nen = true ∧ x.ref l = false ∧ x.side.get l = .l ∧ x.dtc.get l = 0) ∧
    (x.moe = false → x.hs l = false ∧ x.ls l = false) ∧
    (x.moe = true → x.dtc.get l = 0 → x.side.get l = (if x.ref l then .h else .l) →
      (x.cfgA.get l = ⟨.forcedLow, true, false⟩ → x.hs l = false ∧ x.ls l = false) ∧
      (x.cfgA.get l = ⟨.forcedLow, true, true⟩ → x.hs l = false ∧ x.ls l = true) ∧
      (x.cfgA.get l = ⟨.pwm, true, true⟩ →
        x.hs l = decide (x.cnt.toNat < (x.cmpA.get l).toNat) ∧
        x.ls l = !decide (x.cnt.toNat < (x.cmpA.get l).toNat)) ∧
      (x.cfgA.get l = ⟨.forcedHigh, true, true⟩ → x.hs l = true ∧ x.ls l = false))

/-- R115: no leg ever has both switches on, in any state, for any dead time and any active configuration. -/
def Obligations.NoShootThrough : Prop :=
  ∀ (s : State) (l : Leg), ¬ (s.pce.hs l = true ∧ s.pce.ls l = true)

/-- R112: from a tick on that changes the commanded side of a leg, both its switches are off for DEAD_TIME ticks. -/
def Obligations.DeadTimeHoldsBothSwitchesOff : Prop :=
  ∀ (s t : State) (l : Leg), runLabel .pwmTick s = .next t → t.pce.side.get l ≠ s.pce.side.get l →
    ∀ k < s.params.deadTime, ∃ u, runLabels (List.replicate k .pwmTick) t = .next u ∧
      u.pce.hs l = false ∧ u.pce.ls l = false

/-- R108, R109, R120: one PWM period is 2 * PWM_TOP ticks; seen without the state the tick-free abstraction drops, its
last tick is one UPDATE and every other tick changes nothing. -/
def Obligations.OnePeriodIsOneUpdate : Prop :=
  ∀ s : State, s.params.Valid → s.pce.pceOn = true → s.pce.cnt = 0 → s.pce.dir = .up →
    (∀ k < 2 * s.params.pwmTop.toNat, ∃ t, runLabels (List.replicate k .pwmTick) s = .next t ∧
      t = { s with pce := t.pce } ∧ t.pce.tickFree = s.pce.tickFree) ∧
    ∃ t, runLabels (List.replicate (2 * s.params.pwmTop.toNat) .pwmTick) s = .next t ∧
      t = { s with pce := t.pce } ∧ t.pce.cnt = 0 ∧ t.pce.dir = .up ∧ t.pce.tickFree = s.pce.update.tickFree

/-- R111: in PWM mode with compare value `c` the reference signal is true on max(2c - 1, 0) of the 2 * PWM_TOP ticks
of a period, counted from `cnt = 0` up to the UPDATE that ends it, whether or not an event is requested. -/
def Obligations.HighTimeOfOnePeriod : Prop :=
  ∀ (s : State) (l : Leg), s.params.Valid → s.pce.pceOn = true → s.pce.cnt = 0 → s.pce.dir = .up →
    (s.pce.cfgA.get l).mode = .pwm → s.pce.cmpA.get l ≤ s.params.pwmTop →
    ((List.range (2 * s.params.pwmTop.toNat)).filter fun k =>
      match runLabels (List.replicate k .pwmTick) s with
      | .next t => t.pce.ref l
      | .fault _ => false
      | .refused _ => false).length = 2 * (s.pce.cmpA.get l).toNat - 1

/-- R110, R119: SVC_COM, enabled exactly when `com_irq`, clears it, sets `running`, and either advances and stages the
new step's pattern or stages FLOAT; it reapplies the duty under the resulting step and signals Ind(COM). -/
def Obligations.SvcComAdvancesOrStagesTheGap : Prop :=
  ∀ s : State, ((∃ t, runLabel .svcCom s = .next t) ↔ s.pce.comIrq = true) ∧ (s.pce.comIrq = true →
    ∃ t, runLabel .svcCom s = .next t ∧
      t = { s with
        pce := { s.pce with
          comIrq := false, running := true, step := t.pce.step, idle := t.pce.idle, cfgS := t.pce.cfgS
          cmpS := compares s.params s.pce.duty t.pce.step }
        trace := s.trace ++ [.ind .com] } ∧
      (s.pce.idle = true →
        t.pce.step.val = (s.pce.step.val + 1) % 6 ∧ t.pce.idle = false ∧
        t.pce.cfgS = pattern s.params t.pce.step) ∧
      (s.pce.idle = false →
        t.pce.step = s.pce.step ∧ t.pce.idle = true ∧ t.pce.cfgS = PerLeg.all ⟨.forcedLow, true, false⟩))

/-- R123: in every step pattern the HI and the LO leg are in PWM mode with both outputs enabled, and the remaining leg
is forced low with its complementary output disabled: exactly two switching legs. -/
def Obligations.EveryPatternHasTwoSwitchingLegs : Prop :=
  ∀ (p : Params) (s : Fin 6), p.Valid →
    (∀ l, (pattern p s).get l =
      if l = (roleOf p s).off then ⟨.forcedLow, true, false⟩ else ⟨.pwm, true, true⟩) ∧
    ([Leg.u, .v, .w].filter fun l => decide (((pattern p s).get l).mode = .pwm)).length = 2 ∧
    ([Leg.u, .v, .w].filter fun l => ((pattern p s).get l).nen).length = 2 ∧
    (∀ l, ((pattern p s).get l).en = true) ∧
    (p.roles = roleTable →
      bridgeCode (pattern p s) = (#v[0x2BB, 0xB2B, 0xBB2, 0x2BB, 0xB2B, 0xBB2] : Vector (BitVec 12) 6).get s)

/-- R114, R27, 70_reset_and_hazards.md R244: BRK clears `moe` and nothing else; while `moe` is clear every gate signal
is off, and no label but PWM.INIT sets it. -/
def Obligations.BreakLatchesUntilPwmInit : Prop :=
  (∀ s : State, runLabel .brk s = .next { s with pce := { s.pce with moe := false } }) ∧
  ∀ (l : Label) (s t : State), s.pce.moe = false → runLabel l s = .next t →
    (∀ g, s.pce.hs g = false ∧ s.pce.ls g = false) ∧
    (t.pce.moe = true → ∃ c, l = .cmd c ∧ decode c = .ok .pwmInit)

/-- R116, R24: the active configuration changes only in a PWM_TICK at the period boundary with a request pending,
which loads the whole staged configuration and raises `com_irq`, in PWM.INIT, or in RESET. -/
def Obligations.ActiveConfigurationChangesOnlyAtEvents : Prop :=
  ∀ (l : Label) (s t : State), runLabel l s = .next t → t.pce.cfgA ≠ s.pce.cfgA →
    (l = .pwmTick ∧ s.pce.dir = .down ∧ s.pce.cnt = 1 ∧ s.pce.comReq = true ∧ t.pce.cfgA = s.pce.cfgS ∧
      t.pce.comIrq = true) ∨
    (∃ c, l = .cmd c ∧ decode c = .ok .pwmInit ∧ t.pce.cfgA = cfgFloat) ∨ (l = .reset ∧ t.pce.cfgA = cfgFloat)

/-- R124: a commutation event is requested only by the commands PWM.COM and PWM.FLOAT. -/
def Obligations.OnlyComAndFloatRequestEvents : Prop :=
  ∀ (l : Label) (s t : State), runLabel l s = .next t → s.pce.comReq = false → t.pce.comReq = true →
    ∃ c, l = .cmd c ∧ (decode c = .ok .pwmCom ∨ decode c = .ok .pwmFloat)

/-- R117, R119: from PWM.INIT, with an event requested in each PWM period and serviced after it, the configuration
made active by event n is FLOAT for odd n and the pattern of step (n / 2) mod 6 for even n, and (step, idle) runs
through the cycle of twelve states, entered at step 1. -/
def Obligations.CommutationVisitsTheStepsInOrder : Prop :=
  ∀ (s : State) (n : Nat), s.params.Valid → 0 < n →
    ∃ t, runLabels (.cmd (encode .pwmInit) :: (List.replicate n (commutationRound s.params)).flatten) s = .next t ∧
      (n % 2 = 1 → t.pce.cfgA = cfgFloat ∧ t.pce.step.val = (n + 1) / 2 % 6 ∧ t.pce.idle = false) ∧
      (n % 2 = 0 → t.pce.cfgA = pattern s.params t.pce.step ∧ t.pce.step.val = n / 2 % 6 ∧ t.pce.idle = true) ∧
      t.pce.running = true

/-- R122: with zero duty every compare value is the centre: PWM.DUTY #0 stages the centre on every leg, and from a
state with zero duty a SVC_COM stages it again and an UPDATE loads it. -/
def Obligations.ZeroDutyIsTheCentre : Prop :=
  ∀ s t : State, Inv s →
    (exec (.pwmDuty 0) s = .next t → t.pce.duty = 0 ∧ t.pce.cmpS = PerLeg.all s.params.pwmCenter) ∧
    (s.pce.duty = 0 → runLabel .svcCom s = .next t →
      t.pce.duty = 0 ∧ t.pce.cmpS = PerLeg.all s.params.pwmCenter ∧ t.pce.cmpA = s.pce.cmpA) ∧
    (s.pce.duty = 0 → s.pce.update.cmpA = PerLeg.all s.params.pwmCenter)

/-! ## AAP -/

/-- 41_adc_pipeline.md R140: ADC.INIT; the buffer and the error counter stay. -/
def Obligations.AdcInitRestartsTheLap : Prop :=
  (∀ c : Command, c.extractLsb' 88 8 = 0x20 →
    decode c = .ok (.adcInit (c.extractLsb' 64 16) (c.extractLsb' 32 16))) ∧
  ∀ (s : State) (half full : Handle), exec (.adcInit half full) s = .next { s with
    aap := {
      acqOn := true, halfCb := some half, fullCb := some full, buf := s.aap.buf, wr := 0,
      htIrq := false, tcIrq := false, teIrq := false, errCnt := s.aap.errCnt }
    trace := s.trace ++ [.response 0] }

/-- R142, R151, 20_memory.md R67: DMA_BEAT, enabled exactly when `acq_on`, writes its pair and no other sample, sets
the flag of a half it completes (and keeps a flag already set), and advances modulo 8. -/
def Obligations.DmaBeatWritesItsPair : Prop :=
  ∀ (s : State) (a1 a2 : U16), ((∃ t, runLabel (.dmaBeat a1 a2) s = .next t) ↔ s.aap.acqOn = true) ∧
    (s.aap.acqOn = true → ∃ t, runLabel (.dmaBeat a1 a2) s = .next t ∧
      t = { s with aap := { s.aap with
        buf := t.aap.buf, htIrq := t.aap.htIrq, tcIrq := t.aap.tcIrq, wr := t.aap.wr } } ∧
      (∀ k : Fin 16, readSample t.aap.buf k =
        if k.val = 2 * s.aap.wr.val then a1
        else if k.val = 2 * s.aap.wr.val + 1 then a2 else readSample s.aap.buf k) ∧
      (t.aap.htIrq = true ↔ s.aap.wr.val = 3 ∨ s.aap.htIrq = true) ∧
      (t.aap.tcIrq = true ↔ s.aap.wr.val = 7 ∨ s.aap.tcIrq = true) ∧
      t.aap.wr.val = (s.aap.wr.val + 1) % 8)

/-- 20_memory.md R68, 41_adc_pipeline.md R147: the half just completed is stable for the four beats that follow. -/
def Obligations.CompletedHalfIsStableForFourBeats : Prop :=
  ∀ (s : State) (pairs : List (U16 × U16)), s.aap.acqOn = true → pairs.length ≤ 4 →
    ∃ t, runLabels (pairs.map fun a => .dmaBeat a.1 a.2) s = .next t ∧
      (s.aap.wr = 4 → ∀ k : Fin 16, k.val < 8 → readSample t.aap.buf k = readSample s.aap.buf k) ∧
      (s.aap.wr = 0 → ∀ k : Fin 16, 8 ≤ k.val → readSample t.aap.buf k = readSample s.aap.buf k)

/-- R142, R141, 95_test_vectors.md A9: eight beats from position 0 fill the buffer in DMA-write order and raise both
notifications. -/
def Obligations.OneLapFillsTheBufferInOrder : Prop :=
  ∀ (s : State) (a : Vector U16 16), s.aap.acqOn = true → s.aap.wr = 0 →
    ∃ t, runLabels [.dmaBeat a[0] a[1], .dmaBeat a[2] a[3], .dmaBeat a[4] a[5], .dmaBeat a[6] a[7],
        .dmaBeat a[8] a[9], .dmaBeat a[10] a[11], .dmaBeat a[12] a[13], .dmaBeat a[14] a[15]] s = .next t ∧
      t.aap.buf = a ∧ t.aap.htIrq = true ∧ t.aap.tcIrq = true ∧ t.aap.wr = 0

/-- R143, R144, R75: the half and the full notification, each enabled exactly when its flag is set: the flag is
cleared, the indicator is signalled, and the callback, if there is one, gets the sixteen samples as they are. -/
def Obligations.AdcServicesNotify : Prop :=
  ∀ s : State,
    ((∃ t, runLabel .svcHt s = .next t) ↔ s.aap.htIrq = true) ∧
    ((∃ t, runLabel .svcTc s = .next t) ↔ s.aap.tcIrq = true) ∧
    (s.aap.htIrq = true → runLabel .svcHt s = .next { s with
      aap := { s.aap with htIrq := false }
      trace := s.trace ++ .ind .adcHt :: (s.aap.halfCb.toList.map fun h => .cbAdc h false s.aap.buf) }) ∧
    (s.aap.tcIrq = true → runLabel .svcTc s = .next { s with
      aap := { s.aap with tcIrq := false }
      trace := s.trace ++ .ind .adcTc :: (s.aap.fullCb.toList.map fun h => .cbAdc h true s.aap.buf) })

/-- R145, R146: a DMA error, enabled exactly when `acq_on`, raises its flag and nothing else; its service, enabled
exactly when the flag is set, counts it, saturating at 2^32 - 1, and signals
Ind(ADC_ERR). -/
def Obligations.DmaErrorsAreOnlyCounted : Prop :=
  ∀ s : State,
    ((∃ t, runLabel .dmaErr s = .next t) ↔ s.aap.acqOn = true) ∧
    ((∃ t, runLabel .svcTe s = .next t) ↔ s.aap.teIrq = true) ∧
    (s.aap.acqOn = true → runLabel .dmaErr s = .next { s with aap := { s.aap with teIrq := true } }) ∧
    (s.aap.teIrq = true → ∃ t, runLabel .svcTe s = .next t ∧
      t = { s with
        aap := { s.aap with teIrq := false, errCnt := t.aap.errCnt }
        trace := s.trace ++ [.ind .adcErr] } ∧
      t.aap.errCnt.toNat = min (s.aap.errCnt.toNat + 1) (2 ^ 32 - 1))

/-- R146, 10_state.md R35: the error counter never decreases but by RESET. -/
def Obligations.ErrorCounterNeverDecreases : Prop :=
  ∀ (l : Label) (s t : State), l ≠ .reset → runLabel l s = .next t → s.aap.errCnt.toNat ≤ t.aap.errCnt.toNat

/-! ## HTS -/

/-- 42_hw_timer_scheduler.md R160, R167: HTS.REG refuses a short interval first, then a full table, and otherwise
claims the lowest free slot, rewriting all five fields of it and nothing else. -/
def Obligations.HtsRegClaimsTheLowestFreeSlot : Prop :=
  (∀ c : Command, c.extractLsb' 88 8 = 0x30 →
    decode c = .ok (.htsReg (c.extractLsb' 64 16) (c.extractLsb' 32 16))) ∧
  ∀ (s : State) (cb : Handle) (delta : U16),
    (delta.toNat < 4 →
      exec (.htsReg cb delta) s = .next { s with trace := s.trace ++ [.response 0xFFFFFFFE] }) ∧
    (4 ≤ delta.toNat → (∀ i, (s.hts.slot i).cb ≠ none) →
      exec (.htsReg cb delta) s = .next { s with trace := s.trace ++ [.response 0xFFFFFFFF] }) ∧
    (4 ≤ delta.toNat → ∀ i : Fin 4, (s.hts.slot i).cb = none → (∀ j < i, (s.hts.slot j).cb ≠ none) →
      ∃ t, exec (.htsReg cb delta) s = .next t ∧
        t = { s with
          hts := { s.hts with slots := t.hts.slots }
          trace := s.trace ++ [.response (BitVec.ofNat 32 i.val)] } ∧
        t.hts.slot i = {
          deadline := BitVec.ofNat 16 ((s.hts.hcnt.toNat + delta.toNat) % 2 ^ 16), delta := delta, cb := some cb
          ie := true, pend := false } ∧
        ∀ j, j ≠ i → t.hts.slot j = s.hts.slot j)

/-- R161: HTS.UNREG frees an in-range slot and disables its interrupt, leaving its other fields, a pending match among
them, and every other slot; an out-of-range id is ignored. -/
def Obligations.HtsUnregFreesTheSlot : Prop :=
  (∀ c : Command, c.extractLsb' 88 8 = 0x31 → decode c = .ok (.htsUnreg (c.extractLsb' 80 8))) ∧
  ∀ (s : State) (slot : U8),
    (∀ i : Fin 4, slot.toNat = i.val →
      ∃ t, exec (.htsUnreg slot) s = .next t ∧
        t = { s with hts := { s.hts with slots := t.hts.slots }, trace := s.trace ++ [.response 0] } ∧
        t.hts.slot i = { s.hts.slot i with cb := none, ie := false } ∧
        ∀ j, j ≠ i → t.hts.slot j = s.hts.slot j) ∧
    (4 ≤ slot.toNat → exec (.htsUnreg slot) s = .next { s with trace := s.trace ++ [.response 0] })

/-- R162: HTS.MOD writes the period of an in-range slot, free or not, without any check, and nothing else; an
out-of-range id is ignored. -/
def Obligations.HtsModWritesOnlyThePeriod : Prop :=
  (∀ c : Command, c.extractLsb' 88 8 = 0x32 →
    decode c = .ok (.htsMod (c.extractLsb' 80 8) (c.extractLsb' 32 16))) ∧
  ∀ (s : State) (slot : U8) (delta : U16),
    (∀ i : Fin 4, slot.toNat = i.val →
      ∃ t, exec (.htsMod slot delta) s = .next t ∧
        t = { s with hts := { s.hts with slots := t.hts.slots }, trace := s.trace ++ [.response 0] } ∧
        t.hts.slot i = { s.hts.slot i with delta := delta } ∧
        ∀ j, j ≠ i → t.hts.slot j = s.hts.slot j) ∧
    (4 ≤ slot.toNat → exec (.htsMod slot delta) s = .next { s with trace := s.trace ++ [.response 0] })

/-- R163: HCNT_TICK counts modulo 2^16 and marks exactly the enabled channels whose deadline equals the new count. -/
def Obligations.HcntTickMarksTheMatches : Prop :=
  ∀ s : State, ∃ t, runLabel .hcntTick s = .next t ∧
    t = { s with hts := t.hts } ∧
    t.hts.hcnt.toNat = (s.hts.hcnt.toNat + 1) % 2 ^ 16 ∧
    ∀ i, t.hts.slot i = { s.hts.slot i with pend := (t.hts.slot i).pend } ∧
      ((t.hts.slot i).pend = true ↔ (s.hts.slot i).pend = true ∨
        ((s.hts.slot i).deadline.toNat = t.hts.hcnt.toNat ∧ (s.hts.slot i).ie = true))

/-- R164: SVC_HTS(i), enabled exactly when the match is pending, clears it, strobes with the matched deadline if the
callback is there and disables the interrupt if it is not, and reloads from the matched deadline in both cases. -/
def Obligations.SvcHtsStrobesAndReloads : Prop :=
  ∀ (s : State) (i : Fin 4), ((∃ t, runLabel (.svcHts i) s = .next t) ↔ (s.hts.slot i).pend = true) ∧
    ((s.hts.slot i).pend = true → ∃ t, runLabel (.svcHts i) s = .next t ∧
      t = { s with hts := { s.hts with slots := t.hts.slots }, trace := t.trace } ∧
      (∀ j, j ≠ i → t.hts.slot j = s.hts.slot j) ∧
      (∀ h, (s.hts.slot i).cb = some h →
        t.trace = s.trace ++ [.cbHts h i (s.hts.slot i).deadline] ∧
        t.hts.slot i = { s.hts.slot i with
          pend := false
          deadline := BitVec.ofNat 16 (((s.hts.slot i).deadline.toNat + (s.hts.slot i).delta.toNat) % 2 ^ 16) }) ∧
      ((s.hts.slot i).cb = none →
        t.trace = s.trace ∧
        t.hts.slot i = { s.hts.slot i with
          pend := false
          ie := false
          deadline := BitVec.ofNat 16 (((s.hts.slot i).deadline.toNat + (s.hts.slot i).delta.toNat) % 2 ^ 16) }))

/-- R163, R160, R166, 70_reset_and_hazards.md R247: an enabled channel whose deadline is `d` ticks ahead of the
counter, 1 <= d <= 65536, is marked by the d-th HCNT_TICK and by none before it. A deadline the counter has reached or
passed is so met a whole lap later. -/
def Obligations.ChannelMatchesExactlyAtItsDeadline : Prop :=
  ∀ (s : State) (i : Fin 4) (d : Nat), (s.hts.slot i).ie = true → (s.hts.slot i).pend = false →
    1 ≤ d → d ≤ 2 ^ 16 → (s.hts.hcnt.toNat + d) % 2 ^ 16 = (s.hts.slot i).deadline.toNat →
    ∀ n ≤ d, ∃ t, runLabels (List.replicate n .hcntTick) s = .next t ∧ (t.hts.slot i).pend = decide (n = d)

/-- R168, R160, R164: a slot registered with period `delta` at count `c0` and serviced each time fewer than `delta`
ticks after its match strobes with the deadlines c0 + delta, c0 + 2 delta, ..., modulo 2^16, and with nothing else. -/
def Obligations.HardwareTimerIsPeriodic : Prop :=
  ∀ (s : State) (i : Fin 4) (cb : Handle) (delta : U16) (lates : List Nat), 4 ≤ delta.toNat →
    (s.hts.slot i).cb = none → (∀ j < i, (s.hts.slot j).cb ≠ none) → (∀ r ∈ lates, r < delta.toNat) →
    ∃ t, runLabels (.cmd (encode (.htsReg cb delta)) :: htsRounds i delta.toNat delta.toNat lates) s = .next t ∧
      t.trace = s.trace ++ .response (BitVec.ofNat 32 i.val) ::
        (List.range lates.length).map fun n =>
          .cbHts cb i (BitVec.ofNat 16 (s.hts.hcnt.toNat + (n + 1) * delta.toNat))

/-! ## STL -/

/-- 43_soft_timer_ladder.md R180: STL.REG answers -1 when all five slots are occupied and otherwise claims the lowest
free one, started at the present tick; nothing else changes. -/
def Obligations.StlRegClaimsTheLowestFreeSlot : Prop :=
  (∀ c : Command, c.extractLsb' 88 8 = 0x40 →
    decode c = .ok (.stlReg (c.extractLsb' 64 16) (c.extractLsb' 32 32))) ∧
  ∀ (s : State) (cb : Handle) (period : U32),
    ((∀ j, (s.stl.slot j).cb ≠ none) →
      exec (.stlReg cb period) s = .next { s with trace := s.trace ++ [.response 0xFFFFFFFF] }) ∧
    (∀ j : Fin 5, (s.stl.slot j).cb = none → (∀ k < j, (s.stl.slot k).cb ≠ none) →
      ∃ t, exec (.stlReg cb period) s = .next t ∧
        t = { s with
          stl := { s.stl with slots := t.stl.slots }
          trace := s.trace ++ [.response (BitVec.ofNat 32 j.val)] } ∧
        t.stl.slot j = { cb := some cb, start := s.stl.tick, period := period } ∧
        ∀ k, k ≠ j → t.stl.slot k = s.stl.slot k)

/-- R181: STL.UNREG frees an in-range slot, occupied or not, and nothing else; an out-of-range id is ignored. -/
def Obligations.StlUnregFreesTheSlot : Prop :=
  (∀ c : Command, c.extractLsb' 88 8 = 0x41 → decode c = .ok (.stlUnreg (c.extractLsb' 80 8))) ∧
  ∀ (s : State) (slot : U8),
    (∀ j : Fin 5, slot.toNat = j.val →
      ∃ t, exec (.stlUnreg slot) s = .next t ∧
        t = { s with stl := { s.stl with slots := t.stl.slots }, trace := s.trace ++ [.response 0] } ∧
        t.stl.slot j = { s.stl.slot j with cb := none } ∧
        ∀ k, k ≠ j → t.stl.slot k = s.stl.slot k) ∧
    (5 ≤ slot.toNat → exec (.stlUnreg slot) s = .next { s with trace := s.trace ++ [.response 0] })

/-- R182: STL.UPD writes the period of an in-range slot, free or not, and nothing else; an out-of-range id is ignored.
-/
def Obligations.StlUpdWritesOnlyThePeriod : Prop :=
  (∀ c : Command, c.extractLsb' 88 8 = 0x42 →
    decode c = .ok (.stlUpd (c.extractLsb' 80 8) (c.extractLsb' 32 32))) ∧
  ∀ (s : State) (slot : U8) (period : U32),
    (∀ j : Fin 5, slot.toNat = j.val →
      ∃ t, exec (.stlUpd slot period) s = .next t ∧
        t = { s with stl := { s.stl with slots := t.stl.slots }, trace := s.trace ++ [.response 0] } ∧
        t.stl.slot j = { s.stl.slot j with period := period } ∧
        ∀ k, k ≠ j → t.stl.slot k = s.stl.slot k) ∧
    (5 ≤ slot.toNat → exec (.stlUpd slot period) s = .next { s with trace := s.trace ++ [.response 0] })

/-- R184: STL.TS answers the tick counter and changes nothing. -/
def Obligations.StlTsReadsTheTick : Prop :=
  (∀ c : Command, c.extractLsb' 88 8 = 0x43 → decode c = .ok .stlTs) ∧
  ∀ s : State, exec .stlTs s = .next { s with trace := s.trace ++ [.response s.stl.tick] }

/-- R185: STL.ELAPSED answers whether the ticks since `ts`, modulo 2^32, exceed `thr`, strictly, and changes nothing.
-/
def Obligations.StlElapsedIsStrictModulo : Prop :=
  (∀ c : Command, c.extractLsb' 88 8 = 0x44 →
    decode c = .ok (.stlElapsed (c.extractLsb' 32 32) (c.extractLsb' 0 32))) ∧
  ∀ (s : State) (ts thr : U32),
    let e := (2 ^ 32 + s.stl.tick.toNat - ts.toNat) % 2 ^ 32
    (thr.toNat < e → exec (.stlElapsed ts thr) s = .next { s with trace := s.trace ++ [.response 1] }) ∧
    (e ≤ thr.toNat → exec (.stlElapsed ts thr) s = .next { s with trace := s.trace ++ [.response 0] })

/-- R183: SYS_TICK counts modulo 2^32, then every occupied slot whose elapsed time exceeds its period is rearmed and
strobes, in ascending slot order; nothing else changes. -/
def Obligations.SysTickFiresTheElapsedSlots : Prop :=
  ∀ s : State, ∃ t, runLabel .sysTick s = .next t ∧
    let fires : Fin 5 → Prop := fun j =>
      (s.stl.slot j).cb ≠ none ∧
        (s.stl.slot j).period.toNat < (2 ^ 32 + t.stl.tick.toNat - (s.stl.slot j).start.toNat) % 2 ^ 32
    t = { s with stl := t.stl, trace := t.trace } ∧
    t.stl.tick.toNat = (s.stl.tick.toNat + 1) % 2 ^ 32 ∧
    (∀ j, (fires j → t.stl.slot j = { s.stl.slot j with start := t.stl.tick }) ∧
      (¬ fires j → t.stl.slot j = s.stl.slot j)) ∧
    ∃ order : List (Fin 5), order.Pairwise (· < ·) ∧ (∀ j, j ∈ order ↔ fires j) ∧
      t.trace = s.trace ++ order.map fun j => .cbStl ((s.stl.slot j).cb.getD 0) j

/-- R186, R187, 70_reset_and_hazards.md R245: a soft timer started at the present tick with period P < 2^32 - 1 that
is left alone strobes at the ticks P + 1, 2 (P + 1), ... after it and at no other, across the wrap of the tick
counter; with P = 2^32 - 1 it never strobes. -/
def Obligations.SoftTimerFiresEveryPeriodPlusOne : Prop :=
  ∀ (s : State) (j : Fin 5) (h : Handle), (s.stl.slot j).cb = some h → (s.stl.slot j).start = s.stl.tick →
    let P := (s.stl.slot j).period.toNat
    (P + 1 < 2 ^ 32 → ∀ k r, r ≤ P →
      ∃ t, runLabels (List.replicate (k * (P + 1) + r) .sysTick) s = .next t ∧
        t.stlStrobes j = s.stlStrobes j ++ List.replicate k (.cbStl h j)) ∧
    (P + 1 = 2 ^ 32 → ∀ n, ∃ t, runLabels (List.replicate n .sysTick) s = .next t ∧
      t.stlStrobes j = s.stlStrobes j)

/-- 60_exceptions.md R218: a free soft timer slot emits no strobe in any step and stays free until STL.REG. -/
def Obligations.FreeSoftTimerIsSilent : Prop :=
  ∀ (l : Label) (s t : State) (j : Fin 5), (s.stl.slot j).cb = none → runLabel l s = .next t →
    t.stlStrobes j = s.stlStrobes j ∧
    ((t.stl.slot j).cb = none ∨ ∃ c cb period, l = .cmd c ∧ decode c = .ok (.stlReg cb period))

/-! ## What is observed -/

/-- 10_state.md R22, R35, R45: `running` and `err_cnt` are read by no rule: a state that differs only in them takes
the same labels with the same outputs, and the results differ only in them. -/
def Obligations.DiagnosticsAreReadByNoRule : Prop :=
  ∀ (l : Label) (s t : State) (b : Bool) (n : U32), runLabel l s = .next t →
    ∃ b' n', runLabel l { s with pce := { s.pce with running := b }, aap := { s.aap with errCnt := n } } =
      .next { t with pce := { t.pce with running := b' }, aap := { t.aap with errCnt := n' } }

/-- R45: no command's response depends on PCE's state, on AAP's state, on the hardware counter or on the deadlines,
periods and flags of the hardware timer slots: the host cannot see them through a command. -/
def Obligations.ResponsesRevealOnlySlotsAndTick : Prop :=
  ∀ (i : Instr) (s s' t t' : State), exec i s = .next t → exec i s' = .next t' → s'.trace = s.trace →
    s'.stl = s.stl → (∀ k, (s'.hts.slot k).cb = (s.hts.slot k).cb) → t'.trace = t.trace
end

