-- ==== Sys2Proof/Laws/Encoding.lean ====
section
/-! SUPPORT. The command word and its fields (30_encoding.md R80, R81): packing and unpacking are inverse, and masks of
whole fields act on the fields. -/

namespace Sys2Proof

@[simp] theorem fieldsOf_pack (f : Fields) : fieldsOf f.pack = f := by
  obtain ⟨op, slot, cb, arg0, arg1⟩ := f
  simp only [fieldsOf, Fields.pack, Fields.mk.injEq]
  refine ⟨?_, ?_, ?_, ?_, ?_⟩ <;> apply BitVec.eq_of_getLsbD_eq <;> intro i hi <;>
    simp only [BitVec.getLsbD_extractLsb', BitVec.getLsbD_append] <;>
    simp (disch := omega) [hi] <;> grind

@[simp] theorem pack_fieldsOf (c : Command) : (fieldsOf c).pack = c := by
  apply BitVec.eq_of_getLsbD_eq
  intro i hi
  simp only [fieldsOf, Fields.pack, BitVec.getLsbD_extractLsb', BitVec.getLsbD_append]
  grind

/-- A command word is its fields. -/
theorem command_eq_of_fieldsOf {c d : Command} (h : fieldsOf c = fieldsOf d) : c = d := by
  rw [← pack_fieldsOf c, ← pack_fieldsOf d, h]

/-- Masking a command word masks each field. -/
theorem fieldsOf_and (c d : Command) :
    fieldsOf (c &&& d) =
      ⟨(fieldsOf c).op &&& (fieldsOf d).op, (fieldsOf c).slot &&& (fieldsOf d).slot,
       (fieldsOf c).cb &&& (fieldsOf d).cb, (fieldsOf c).arg0 &&& (fieldsOf d).arg0,
       (fieldsOf c).arg1 &&& (fieldsOf d).arg1⟩ := by
  simp only [fieldsOf, Fields.mk.injEq]
  refine ⟨?_, ?_, ?_, ?_, ?_⟩ <;> apply BitVec.eq_of_getLsbD_eq <;> intro i hi <;>
    simp [hi]

/-- `arg0` masked to its low half is the low half widened. -/
theorem and_lowHalf (a : U32) : a &&& 0x0000FFFF = (a.extractLsb' 0 16).zeroExtend 32 := by
  apply BitVec.eq_of_getLsbD_eq
  intro i hi
  have h : (0x0000FFFF : U32).getLsbD i = decide (i < 16) := by
    have : ∀ k : Fin 32, (0x0000FFFF : U32).getLsbD k.val = decide (k.val < 16) := by decide
    exact this ⟨i, hi⟩
  simp only [BitVec.getLsbD_and, h, BitVec.truncate_eq_setWidth, BitVec.getLsbD_setWidth,
    BitVec.getLsbD_extractLsb']
  by_cases h16 : i < 16 <;> simp [h16, hi]

/-- The low half of a widened half is that half. -/
@[simp] theorem extract_zeroExtend (v : U16) : (v.zeroExtend 32).extractLsb' 0 16 = v := by
  apply BitVec.eq_of_getLsbD_eq
  intro i hi
  simp [hi]
  omega

/-- A word that decodes to a command carries that command's opcode (R83, R94). -/
theorem decodeFields_opcode {f : Fields} {i : Instr} (h : decodeFields f = .ok i) : f.op = i.opcode := by
  apply BitVec.eq_of_toNat_eq
  unfold decodeFields at h
  split at h <;> cases h <;> assumption

end Sys2Proof
end

