-- ==== Sys2Proof/Laws/State.lean ====
section
/-! SUPPORT. One lemma per field per update of State, so that no later proof unfolds a record update. -/

namespace Sys2Proof.Machine

variable (s : State) (o : Output) (w : U32) (x : Pce) (y : Aap) (z : Hts) (k : Stl)

@[simp] theorem State.emit_params : (s.emit o).params = s.params := rfl
@[simp] theorem State.emit_pce : (s.emit o).pce = s.pce := rfl
@[simp] theorem State.emit_aap : (s.emit o).aap = s.aap := rfl
@[simp] theorem State.emit_hts : (s.emit o).hts = s.hts := rfl
@[simp] theorem State.emit_stl : (s.emit o).stl = s.stl := rfl
@[simp] theorem State.emit_agenda : (s.emit o).agenda = s.agenda := rfl
@[simp] theorem State.emit_trace : (s.emit o).trace = s.trace ++ [o] := rfl
@[simp] theorem State.emit_draws : (s.emit o).draws = s.draws := rfl
@[simp] theorem State.emit_choices : (s.emit o).choices = s.choices := rfl

@[simp] theorem State.respond_params : (s.respond w).params = s.params := rfl
@[simp] theorem State.respond_pce : (s.respond w).pce = s.pce := rfl
@[simp] theorem State.respond_aap : (s.respond w).aap = s.aap := rfl
@[simp] theorem State.respond_hts : (s.respond w).hts = s.hts := rfl
@[simp] theorem State.respond_stl : (s.respond w).stl = s.stl := rfl
@[simp] theorem State.respond_agenda : (s.respond w).agenda = s.agenda := rfl
@[simp] theorem State.respond_trace : (s.respond w).trace = s.trace ++ [.response w] := rfl
@[simp] theorem State.respond_draws : (s.respond w).draws = s.draws := rfl
@[simp] theorem State.respond_choices : (s.respond w).choices = s.choices := rfl

@[simp] theorem State.withPce_params : (s.withPce x).params = s.params := rfl
@[simp] theorem State.withPce_pce : (s.withPce x).pce = x := rfl
@[simp] theorem State.withPce_aap : (s.withPce x).aap = s.aap := rfl
@[simp] theorem State.withPce_hts : (s.withPce x).hts = s.hts := rfl
@[simp] theorem State.withPce_stl : (s.withPce x).stl = s.stl := rfl
@[simp] theorem State.withPce_agenda : (s.withPce x).agenda = s.agenda := rfl
@[simp] theorem State.withPce_trace : (s.withPce x).trace = s.trace := rfl
@[simp] theorem State.withPce_draws : (s.withPce x).draws = s.draws := rfl
@[simp] theorem State.withPce_choices : (s.withPce x).choices = s.choices := rfl

@[simp] theorem State.withAap_params : (s.withAap y).params = s.params := rfl
@[simp] theorem State.withAap_pce : (s.withAap y).pce = s.pce := rfl
@[simp] theorem State.withAap_aap : (s.withAap y).aap = y := rfl
@[simp] theorem State.withAap_hts : (s.withAap y).hts = s.hts := rfl
@[simp] theorem State.withAap_stl : (s.withAap y).stl = s.stl := rfl
@[simp] theorem State.withAap_agenda : (s.withAap y).agenda = s.agenda := rfl
@[simp] theorem State.withAap_trace : (s.withAap y).trace = s.trace := rfl
@[simp] theorem State.withAap_draws : (s.withAap y).draws = s.draws := rfl
@[simp] theorem State.withAap_choices : (s.withAap y).choices = s.choices := rfl

@[simp] theorem State.withHts_params : (s.withHts z).params = s.params := rfl
@[simp] theorem State.withHts_pce : (s.withHts z).pce = s.pce := rfl
@[simp] theorem State.withHts_aap : (s.withHts z).aap = s.aap := rfl
@[simp] theorem State.withHts_hts : (s.withHts z).hts = z := rfl
@[simp] theorem State.withHts_stl : (s.withHts z).stl = s.stl := rfl
@[simp] theorem State.withHts_agenda : (s.withHts z).agenda = s.agenda := rfl
@[simp] theorem State.withHts_trace : (s.withHts z).trace = s.trace := rfl
@[simp] theorem State.withHts_draws : (s.withHts z).draws = s.draws := rfl
@[simp] theorem State.withHts_choices : (s.withHts z).choices = s.choices := rfl

@[simp] theorem State.withStl_params : (s.withStl k).params = s.params := rfl
@[simp] theorem State.withStl_pce : (s.withStl k).pce = s.pce := rfl
@[simp] theorem State.withStl_aap : (s.withStl k).aap = s.aap := rfl
@[simp] theorem State.withStl_hts : (s.withStl k).hts = s.hts := rfl
@[simp] theorem State.withStl_stl : (s.withStl k).stl = k := rfl
@[simp] theorem State.withStl_agenda : (s.withStl k).agenda = s.agenda := rfl
@[simp] theorem State.withStl_trace : (s.withStl k).trace = s.trace := rfl
@[simp] theorem State.withStl_draws : (s.withStl k).draws = s.draws := rfl
@[simp] theorem State.withStl_choices : (s.withStl k).choices = s.choices := rfl

/-- A state is its fields: two states with equal fields are equal. -/
theorem State.eq_of_fields {s t : State} (h1 : s.params = t.params) (h2 : s.pce = t.pce) (h3 : s.aap = t.aap)
    (h4 : s.hts = t.hts) (h5 : s.stl = t.stl) (h6 : s.agenda = t.agenda) (h7 : s.trace = t.trace)
    (h8 : s.draws = t.draws) (h9 : s.choices = t.choices) : s = t := by
  cases s; cases t; simp_all

end Sys2Proof.Machine
end

