-- ==== Sys2Proof/Laws/Ops.lean ====
section
/-! SUPPORT. The shared operations, each said once: per-leg values, saturation, the buffer, the slot tables, the slot a
registration claims and the slot an operand names. -/

namespace Sys2Proof

@[simp] theorem PerLeg.get_ofFn {α : Type} (f : Leg → α) (l : Leg) : (PerLeg.ofFn f).get l = f l := by cases l <;> rfl
@[simp] theorem PerLeg.get_all {α : Type} (a : α) (l : Leg) : (PerLeg.all a).get l = a := by cases l <;> rfl

/-- Two per-leg values are equal when they agree on every leg. -/
theorem PerLeg.ext_get {α : Type} {x y : PerLeg α} (h : ∀ l, x.get l = y.get l) : x = y := by
  obtain ⟨a, b, c⟩ := x
  obtain ⟨d, e, f⟩ := y
  have h1 := h .u
  have h2 := h .v
  have h3 := h .w
  simp_all [PerLeg.get]

/-- A property of every leg is a property of U, V and W. -/
theorem forall_leg {P : Leg → Prop} : (∀ l, P l) ↔ P .u ∧ P .v ∧ P .w :=
  ⟨fun h => ⟨h _, h _, h _⟩, fun ⟨h1, h2, h3⟩ l => by cases l <;> assumption⟩

end Sys2Proof

namespace Sys2Proof.Machine

/-! ### The channel-to-slot table -/

/-- R141's table meets the constraints R141 quotes (41_adc_pipeline.md R141). -/
theorem adcSlotTable_valid : AdcSlotsValid adcSlotTable := by decide

/-- Which indices the same-named slots of R148 are: those of the signal in the half asked for. -/
@[simp] theorem mem_sameNamedSlots (p : Params) (isFull : Bool) (signal : Signal) (k : Fin 16) :
    k ∈ sameNamedSlots p isFull signal ↔
      (p.adcSlots.get k).round = (if isFull then 2 else 1) ∧ (p.adcSlots.get k).signal = signal := by
  simp [sameNamedSlots]

/-- With a valid table the same-named slots of a half lie in that half of the buffer (R141, 90_conflicts.md C5). -/
theorem sameNamedSlots_half {p : Params} (h : p.Valid) {isFull : Bool} {signal : Signal} {k : Fin 16}
    (hk : k ∈ sameNamedSlots p isFull signal) : k.val / 8 = if isFull then 1 else 0 := by
  have h1 := (h.2.2.2.1 k).1
  have h2 := ((mem_sameNamedSlots p isFull signal k).1 hk).1
  cases isFull <;> simp at h2 ⊢ <;> omega

/-! ### Saturation and patterns -/

/-- `sat` is the integer clamped to 0..PWM_TOP (00_scope.md R9): no wrap. -/
theorem sat_toNat (p : Params) (x : Int) : ((sat p x).toNat : Int) = min (max x 0) p.pwmTop.toNat := by
  have h := p.pwmTop.isLt
  simp only [sat, BitVec.toNat_ofInt]
  omega

theorem sat_le (p : Params) (x : Int) : sat p x ≤ p.pwmTop := by
  have h := sat_toNat p x
  rw [BitVec.le_def]
  omega

/-- A value in range is not changed by `sat`. -/
theorem sat_of_le {p : Params} {c : U16} (h : c ≤ p.pwmTop) : sat p c.toNat = c := by
  apply BitVec.eq_of_toNat_eq
  have := sat_toNat p c.toNat
  rw [BitVec.le_def] at h
  omega

/-- A configuration that does not switch has no leg in PWM mode. -/
theorem still_not_pwm {c : PerLeg LegCfg} (h : isStill c) (l : Leg) : (c.get l).mode = .forcedLow := by
  rcases h with rfl | rfl <;> simp [cfgFloat, cfgLowSide, legOff, legLowSide]

theorem pattern_get (p : Params) (s : Fin 6) (l : Leg) :
    (pattern p s).get l = if l = (roleOf p s).hi ∨ l = (roleOf p s).lo then legPwm else legOff := by
  simp [pattern]

theorem compares_get (p : Params) (d : U16) (s : Fin 6) (l : Leg) :
    (compares p d s).get l =
      if l = (roleOf p s).hi then sat p (p.pwmCenter.toNat + dutyOffset p d)
      else if l = (roleOf p s).lo then sat p (p.pwmCenter.toNat - dutyOffset p d)
      else p.pwmCenter := by
  simp [compares]

theorem compares_le {p : Params} (h : p.pwmCenter ≤ p.pwmTop) (d : U16) (s : Fin 6) (l : Leg) :
    (compares p d s).get l ≤ p.pwmTop := by
  rw [compares_get]
  split
  · exact sat_le _ _
  · split
    · exact sat_le _ _
    · exact h

/-- With zero duty every compare value is the centre (40_pwm_commutation.md R100). -/
theorem compares_zero {p : Params} (h : p.pwmCenter ≤ p.pwmTop) (s : Fin 6) :
    compares p 0 s = PerLeg.all p.pwmCenter := by
  apply PerLeg.ext_get
  intro l
  have hq : dutyOffset p 0 = 0 := by simp [dutyOffset]
  rw [compares_get, hq]
  simp [sat_of_le h]

/-- The offset as R100 states it the second time: the sign of the duty times its magnitude shifted right. -/
theorem dutyOffset_eq (p : Params) (d : U16) :
    dutyOffset p d = d.toInt.sign * ((d.toInt.natAbs >>> p.dutyShift.val : Nat) : Int) := by
  have nonneg : ∀ n : Nat, (n : Int).tdiv (2 ^ p.dutyShift.val) = ((n / 2 ^ p.dutyShift.val : Nat) : Int) := by
    intro n
    rw [Int.tdiv_eq_ediv_of_nonneg (by omega)]
    simp
  rw [dutyOffset, Nat.shiftRight_eq_div_pow]
  generalize d.toInt = x
  rcases Int.natAbs_eq x with h | h <;> rcases Nat.eq_zero_or_pos x.natAbs with h0 | h0
  · simp [Int.natAbs_eq_zero.1 h0]
  · rw [Int.sign_eq_one_of_pos (by omega), one_mul, ← nonneg, ← h]
  · simp [Int.natAbs_eq_zero.1 h0]
  · rw [Int.sign_eq_neg_one_of_neg (by omega), ← nonneg]
    conv_lhs => rw [h]
    rw [Int.neg_tdiv]
    simp

/-! ### The buffer -/

/-- A beat writes its pair and leaves every other sample (41_adc_pipeline.md R142). -/
theorem readSample_writeBeat (buf : Vector U16 16) (b : Fin 8) (a1 a2 : U16) (k : Fin 16) :
    readSample (writeBeat buf b a1 a2) k =
      if k.val = 2 * b.val then a1 else if k.val = 2 * b.val + 1 then a2 else readSample buf k := by
  have hk := k.isLt
  simp only [readSample, writeBeat, Vector.get_eq_getElem, Vector.getElem_set]
  split
  · rw [if_neg (by omega), if_pos (by omega)]
  · split
    · rw [if_pos (by omega)]
    · rw [if_neg (by omega), if_neg (by omega)]

/-- A buffer is its samples. -/
theorem buf_ext {x y : Vector U16 16} (h : ∀ k, readSample x k = readSample y k) : x = y := by
  apply Vector.ext
  intro i hi
  exact h ⟨i, hi⟩

/-! ### The slot tables -/

@[simp] theorem Hts.setSlot_hcnt (x : Hts) (i : Fin 4) (t : HSlot) : (x.setSlot i t).hcnt = x.hcnt := rfl
@[simp] theorem Hts.mapSlots_hcnt (x : Hts) (f : HSlot → HSlot) : (x.mapSlots f).hcnt = x.hcnt := rfl
@[simp] theorem Stl.setSlot_tick (x : Stl) (j : Fin 5) (t : SSlot) : (x.setSlot j t).tick = x.tick := rfl
@[simp] theorem Stl.mapSlots_tick (x : Stl) (f : SSlot → SSlot) : (x.mapSlots f).tick = x.tick := rfl

/-- Writing a hardware timer slot changes that slot only. -/
@[simp] theorem Hts.slot_setSlot (x : Hts) (i j : Fin 4) (t : HSlot) :
    (x.setSlot i t).slot j = if j = i then t else x.slot j := by
  simp only [Hts.slot, Hts.setSlot, Vector.get_eq_getElem, Vector.getElem_set, Fin.ext_iff, eq_comm]

@[simp] theorem Hts.slot_mapSlots (x : Hts) (f : HSlot → HSlot) (j : Fin 4) : (x.mapSlots f).slot j = f (x.slot j) := by
  fin_cases j <;> rfl

/-- Writing a soft timer slot changes that slot only. -/
@[simp] theorem Stl.slot_setSlot (x : Stl) (i j : Fin 5) (t : SSlot) :
    (x.setSlot i t).slot j = if j = i then t else x.slot j := by
  simp only [Stl.slot, Stl.setSlot, Vector.get_eq_getElem, Vector.getElem_set, Fin.ext_iff, eq_comm]

@[simp] theorem Stl.slot_mapSlots (x : Stl) (f : SSlot → SSlot) (j : Fin 5) : (x.mapSlots f).slot j = f (x.slot j) := by
  fin_cases j <;> rfl

/-- One count of the hardware counter: the count itself, and the match flag of each channel (R163). -/
@[simp] theorem Hts.count_hcnt (x : Hts) : x.count.hcnt = x.hcnt + 1 := rfl

theorem Hts.count_slot (x : Hts) (i : Fin 4) :
    x.count.slot i = { x.slot i with pend := (x.slot i).pend || (x.slot i).hits (x.hcnt + 1) } := by
  rw [Hts.count, Hts.slot_mapSlots]
  rfl

/-- One system tick: the tick itself, and each slot as the scan leaves it (43_soft_timer_ladder.md R183). -/
@[simp] theorem Stl.count_tick (x : Stl) : x.count.tick = x.tick + 1 := rfl

theorem Stl.count_slot (x : Stl) (j : Fin 5) : x.count.slot j = (x.slot j).scanned (x.tick + 1) := by
  rw [Stl.count, Stl.slot_mapSlots]
  rfl

/-- The elapsed-time test on natural numbers: strict, modulo 2^32 (R183, R185). -/
theorem elapsedExceeds_iff (tick start period : U32) :
    elapsedExceeds tick start period = true ↔
      period.toNat < (2 ^ 32 + tick.toNat - start.toNat) % 2 ^ 32 := by
  have := start.isLt
  simp only [elapsedExceeds, decide_eq_true_eq, BitVec.lt_def, BitVec.toNat_sub]
  rw [show 2 ^ 32 - start.toNat + tick.toNat = 2 ^ 32 + tick.toNat - start.toNat by omega]

/-- A registration claims slot `i` exactly when `i` is free and every lower slot is occupied
(42_hw_timer_scheduler.md R160). -/
theorem Hts.lowestFree_eq_some {x : Hts} {i : Fin 4} :
    x.lowestFree = some i ↔ (x.slot i).cb = none ∧ ∀ j < i, (x.slot j).cb ≠ none := by
  simp only [Hts.lowestFree, hSlotIds, List.find?_cons, List.find?_nil]
  cases h0 : (x.slot 0).cb <;> cases h1 : (x.slot 1).cb <;> cases h2 : (x.slot 2).cb <;> cases h3 : (x.slot 3).cb <;>
    simp only [Option.isNone] <;> fin_cases i <;> simp [h0, h1, h2, h3, Fin.forall_fin_succ]

/-- No slot is claimed exactly when all are occupied (R160). -/
theorem Hts.lowestFree_eq_none {x : Hts} : x.lowestFree = none ↔ ∀ i, (x.slot i).cb ≠ none := by
  simp [Hts.lowestFree, hSlotIds, Fin.forall_fin_succ]

/-- The linear scan finds slot `j` exactly when `j` is free and every lower slot is occupied
(43_soft_timer_ladder.md R180). -/
theorem Stl.lowestFree_eq_some {x : Stl} {j : Fin 5} :
    x.lowestFree = some j ↔ (x.slot j).cb = none ∧ ∀ k < j, (x.slot k).cb ≠ none := by
  simp only [Stl.lowestFree, sSlotIds, List.find?_cons, List.find?_nil]
  cases h0 : (x.slot 0).cb <;> cases h1 : (x.slot 1).cb <;> cases h2 : (x.slot 2).cb <;> cases h3 : (x.slot 3).cb <;>
    cases h4 : (x.slot 4).cb <;>
    simp only [Option.isNone] <;> fin_cases j <;> simp [h0, h1, h2, h3, h4, Fin.forall_fin_succ]

/-- The scan finds nothing exactly when all slots are occupied (R180). -/
theorem Stl.lowestFree_eq_none {x : Stl} : x.lowestFree = none ↔ ∀ j, (x.slot j).cb ≠ none := by
  simp [Stl.lowestFree, sSlotIds, Fin.forall_fin_succ]

/-- An in-range operand names its slot. -/
theorem hSlotOf_of_eq {slot : U8} {i : Fin 4} (h : slot.toNat = i.val) : hSlotOf slot = some i := by
  have := i.isLt
  simp [hSlotOf, h]

/-- An out-of-range operand names none (20_memory.md R62). -/
theorem hSlotOf_of_le {slot : U8} (h : 4 ≤ slot.toNat) : hSlotOf slot = none := by
  simp [hSlotOf]; omega

theorem sSlotOf_of_eq {slot : U8} {j : Fin 5} (h : slot.toNat = j.val) : sSlotOf slot = some j := by
  have := j.isLt
  simp [sSlotOf, h]

theorem sSlotOf_of_le {slot : U8} (h : 5 ≤ slot.toNat) : sSlotOf slot = none := by
  simp [sSlotOf]; omega

end Sys2Proof.Machine
end

