-- ==== Sys2Proof/Laws/PerInstr.lean ====
section
/-! SUPPORT. One lemma per command: its canonical word matches its row of spec/opcode_table.json and is zero in every bit
the row does not name (30_encoding.md R83, R89). -/

namespace Sys2Proof

/-- The `match` value of a command's row in spec/opcode_table.json. -/
def rowMatch : Instr → Command
  | .pwmInit => 0x100000000000000000000000
  | .pwmFloat => 0x110000000000000000000000
  | .pwmLow => 0x120000000000000000000000
  | .pwmDuty _ => 0x130000000000000000000000
  | .pwmCom => 0x140000000000000000000000
  | .adcInit _ _ => 0x200000000000000000000000
  | .htsReg _ _ => 0x300000000000000000000000
  | .htsUnreg _ => 0x310000000000000000000000
  | .htsMod _ _ => 0x320000000000000000000000
  | .stlReg _ _ => 0x400000000000000000000000
  | .stlUnreg _ => 0x410000000000000000000000
  | .stlUpd _ _ => 0x420000000000000000000000
  | .stlTs => 0x430000000000000000000000
  | .stlElapsed _ _ => 0x440000000000000000000000

/-- The `mask` of every row: the opcode (R83). -/
def rowMask : Command := 0xFF0000000000000000000000

theorem fieldsOf_rowMask : fieldsOf rowMask = ⟨255#8, 0, 0, 0, 0⟩ := by
  simp only [rowMask]
  decide

/-- The row's match is the opcode and nothing else. -/
theorem fieldsOf_rowMatch (i : Instr) : fieldsOf (rowMatch i) = ⟨i.opcode, 0, 0, 0, 0⟩ := by
  cases i <;> (simp only [rowMatch, Instr.opcode]; decide)

@[simp] theorem and_ones8 (a : BitVec 8) : a &&& 255#8 = a := BitVec.and_allOnes
@[simp] theorem and_ones16 (a : BitVec 16) : a &&& 65535#16 = a := BitVec.and_allOnes
@[simp] theorem and_ones32 (a : BitVec 32) : a &&& 4294967295#32 = a := BitVec.and_allOnes

/-- A widened half is unchanged by the mask of its half. -/
@[simp] theorem zeroExtend_and_lowHalf (v : U16) : v.setWidth 32 &&& 65535#32 = v.setWidth 32 := by
  have h := and_lowHalf (v.zeroExtend 32)
  rw [extract_zeroExtend] at h
  exact h

/-- The canonical fields carry the opcode. -/
theorem fields_op (i : Instr) : i.fields.op = i.opcode := by cases i <;> rfl

/-- The opcode part of a canonical word is its row's match. -/
theorem encode_and_rowMask (i : Instr) : encode i &&& rowMask = rowMatch i := by
  apply command_eq_of_fieldsOf
  rw [fieldsOf_and, encode, fieldsOf_pack, fieldsOf_rowMask, fieldsOf_rowMatch, fields_op]
  simp

end Sys2Proof

namespace Sys2Proof.Laws.EncodesItsRow

/-- The canonical word of `i` matches the row of `i`, and every bit the row does not name is zero in it. -/
def Statement (i : Instr) : Prop := encode i &&& rowMask = rowMatch i ∧ encode i &&& i.namedBits = encode i

/-- The second half of `Statement` from the fields of the mask. -/
theorem keeps {i : Instr} {m : Fields} (hm : fieldsOf i.namedBits = m)
    (h : (⟨i.fields.op &&& m.op, i.fields.slot &&& m.slot, i.fields.cb &&& m.cb, i.fields.arg0 &&& m.arg0,
      i.fields.arg1 &&& m.arg1⟩ : Fields) = i.fields) : encode i &&& i.namedBits = encode i := by
  apply command_eq_of_fieldsOf
  rw [fieldsOf_and, encode, fieldsOf_pack, hm, h]

theorem pwmInit : Statement .pwmInit :=
  ⟨encode_and_rowMask _, keeps (m := ⟨255#8, 0, 0, 0, 0⟩)
    (by simp only [Instr.namedBits]; decide)
    (by simp [Instr.fields, Instr.opcode])⟩

theorem pwmFloat : Statement .pwmFloat :=
  ⟨encode_and_rowMask _, keeps (m := ⟨255#8, 0, 0, 0, 0⟩)
    (by simp only [Instr.namedBits]; decide)
    (by simp [Instr.fields, Instr.opcode])⟩

theorem pwmLow : Statement .pwmLow :=
  ⟨encode_and_rowMask _, keeps (m := ⟨255#8, 0, 0, 0, 0⟩)
    (by simp only [Instr.namedBits]; decide)
    (by simp [Instr.fields, Instr.opcode])⟩

theorem pwmDuty (value : U16) : Statement (.pwmDuty value) :=
  ⟨encode_and_rowMask _, keeps (m := ⟨255#8, 0, 0, 65535#32, 0⟩)
    (by simp only [Instr.namedBits]; decide)
    (by simp [Instr.fields, Instr.opcode])⟩

theorem pwmCom : Statement .pwmCom :=
  ⟨encode_and_rowMask _, keeps (m := ⟨255#8, 0, 0, 0, 0⟩)
    (by simp only [Instr.namedBits]; decide)
    (by simp [Instr.fields, Instr.opcode])⟩

theorem adcInit (half : Handle) (full : Handle) : Statement (.adcInit half full) :=
  ⟨encode_and_rowMask _, keeps (m := ⟨255#8, 0, 65535#16, 65535#32, 0⟩)
    (by simp only [Instr.namedBits]; decide)
    (by simp [Instr.fields, Instr.opcode])⟩

theorem htsReg (cb : Handle) (delta : U16) : Statement (.htsReg cb delta) :=
  ⟨encode_and_rowMask _, keeps (m := ⟨255#8, 0, 65535#16, 65535#32, 0⟩)
    (by simp only [Instr.namedBits]; decide)
    (by simp [Instr.fields, Instr.opcode])⟩

theorem htsUnreg (slot : U8) : Statement (.htsUnreg slot) :=
  ⟨encode_and_rowMask _, keeps (m := ⟨255#8, 255#8, 0, 0, 0⟩)
    (by simp only [Instr.namedBits]; decide)
    (by simp [Instr.fields, Instr.opcode])⟩

theorem htsMod (slot : U8) (delta : U16) : Statement (.htsMod slot delta) :=
  ⟨encode_and_rowMask _, keeps (m := ⟨255#8, 255#8, 0, 65535#32, 0⟩)
    (by simp only [Instr.namedBits]; decide)
    (by simp [Instr.fields, Instr.opcode])⟩

theorem stlReg (cb : Handle) (period : U32) : Statement (.stlReg cb period) :=
  ⟨encode_and_rowMask _, keeps (m := ⟨255#8, 0, 65535#16, 4294967295#32, 0⟩)
    (by simp only [Instr.namedBits]; decide)
    (by simp [Instr.fields, Instr.opcode])⟩

theorem stlUnreg (slot : U8) : Statement (.stlUnreg slot) :=
  ⟨encode_and_rowMask _, keeps (m := ⟨255#8, 255#8, 0, 0, 0⟩)
    (by simp only [Instr.namedBits]; decide)
    (by simp [Instr.fields, Instr.opcode])⟩

theorem stlUpd (slot : U8) (period : U32) : Statement (.stlUpd slot period) :=
  ⟨encode_and_rowMask _, keeps (m := ⟨255#8, 255#8, 0, 4294967295#32, 0⟩)
    (by simp only [Instr.namedBits]; decide)
    (by simp [Instr.fields, Instr.opcode])⟩

theorem stlTs : Statement .stlTs :=
  ⟨encode_and_rowMask _, keeps (m := ⟨255#8, 0, 0, 0, 0⟩)
    (by simp only [Instr.namedBits]; decide)
    (by simp [Instr.fields, Instr.opcode])⟩

theorem stlElapsed (ts : U32) (thr : U32) : Statement (.stlElapsed ts thr) :=
  ⟨encode_and_rowMask _, keeps (m := ⟨255#8, 0, 0, 4294967295#32, 4294967295#32⟩)
    (by simp only [Instr.namedBits]; decide)
    (by simp [Instr.fields, Instr.opcode])⟩

end Sys2Proof.Laws.EncodesItsRow
end

