-- ==== Sys2Proof/Laws/Steps.lean ====
section
/-! SUPPORT. What each label can do, said once: a label is taken exactly when it is enabled, every command completes with
one response, no label reads or writes the agenda, and runs of labels compose. -/

namespace Sys2Proof.Machine

/-! ### Each label -/

/-- A guarded step completes exactly when its guard holds. -/
@[simp] theorem guarded_next_iff {c : Prop} [Decidable c] {a t : State} :
    ((if c then .next a else .fault .stepNotEnabled : Result) = .next t) ↔ c ∧ a = t := by
  split <;> simp_all

/-- The outcome `next` is injective, in the form later lemmas use. -/
@[simp] theorem next_eq_next_iff {a t : State} : ((.next a : Result) = .next t) ↔ a = t := by
  constructor
  · intro h; cases h; rfl
  · rintro rfl; rfl

@[simp] theorem runLabel_pwmTick (s : State) :
    runLabel .pwmTick s = if s.pce.pceOn then .next (doPwmTick s) else .fault .stepNotEnabled := rfl
@[simp] theorem runLabel_brk (s : State) : runLabel .brk s = .next (doBrk s) := rfl
@[simp] theorem runLabel_svcCom (s : State) :
    runLabel .svcCom s = if s.pce.comIrq then .next (doSvcCom s) else .fault .stepNotEnabled := rfl
@[simp] theorem runLabel_dmaBeat (a1 a2 : U16) (s : State) :
    runLabel (.dmaBeat a1 a2) s = if s.aap.acqOn then .next (doDmaBeat a1 a2 s) else .fault .stepNotEnabled := rfl
@[simp] theorem runLabel_dmaErr (s : State) :
    runLabel .dmaErr s = if s.aap.acqOn then .next (doDmaErr s) else .fault .stepNotEnabled := rfl
@[simp] theorem runLabel_svcHt (s : State) :
    runLabel .svcHt s = if s.aap.htIrq then .next (doSvcHt s) else .fault .stepNotEnabled := rfl
@[simp] theorem runLabel_svcTc (s : State) :
    runLabel .svcTc s = if s.aap.tcIrq then .next (doSvcTc s) else .fault .stepNotEnabled := rfl
@[simp] theorem runLabel_svcTe (s : State) :
    runLabel .svcTe s = if s.aap.teIrq then .next (doSvcTe s) else .fault .stepNotEnabled := rfl
@[simp] theorem runLabel_hcntTick (s : State) : runLabel .hcntTick s = .next (doHcntTick s) := rfl
@[simp] theorem runLabel_svcHts (i : Fin 4) (s : State) :
    runLabel (.svcHts i) s = if (s.hts.slot i).pend then .next (doSvcHts i s) else .fault .stepNotEnabled := rfl
@[simp] theorem runLabel_sysTick (s : State) : runLabel .sysTick s = .next (doSysTick s) := rfl
@[simp] theorem runLabel_reset (s : State) : runLabel .reset s = .next (doReset s) := rfl
@[simp] theorem runLabel_cmd (c : Command) (s : State) : runLabel (.cmd c) s = doCmd c s := rfl

theorem doCmd_ok {c : Command} {i : Instr} (h : decode c = .ok i) (s : State) : doCmd c s = exec i s := by
  simp [doCmd, h]

theorem doCmd_error {c : Command} {e : Illegal} (h : decode c = .error e) (s : State) :
    doCmd c s = .next (s.respond respIllegal) := by
  obtain ⟨op⟩ := e
  simp [doCmd, h]

/-- Every command completes. -/
theorem exec_completes (i : Instr) (s : State) : ∃ t, exec i s = .next t := by
  cases i <;> simp only [exec, execPwmInit, execPwmFloat, execPwmLow, execPwmDuty, execPwmCom, execAdcInit, execHtsReg,
    execHtsUnreg, execHtsMod, execStlReg, execStlUnreg, execStlUpd, execStlTs, execStlElapsed]
  case htsReg cb delta =>
    split
    · exact ⟨_, rfl⟩
    · split <;> exact ⟨_, rfl⟩
  case stlReg cb period => split <;> exact ⟨_, rfl⟩
  all_goals exact ⟨_, rfl⟩

/-- Every enabled label completes. -/
theorem perform_completes (l : Label) (s : State) : ∃ t, perform l s = .next t := by
  cases l <;> simp only [perform, doCmd]
  case cmd c =>
    split
    · exact exec_completes _ _
    · exact ⟨_, rfl⟩
  all_goals exact ⟨_, rfl⟩

/-- A label is taken exactly when it is enabled. -/
theorem runLabel_completes_iff (l : Label) (s : State) : (∃ t, runLabel l s = .next t) ↔ enabled l s = true := by
  unfold runLabel
  split
  · simp_all [perform_completes]
  · simp_all

theorem runLabel_of_enabled {l : Label} {s : State} (h : enabled l s = true) : runLabel l s = perform l s := by
  simp [runLabel, h]

/-! ### The idle machine -/

/-- Which services are pending does not depend on how many choices have been made. -/
@[simp] theorem enabledServices_choices (s : State) (n : Nat) :
    enabledServices { s with choices := n } = enabledServices s := rfl

/-- The service the free choice picks is one of those to choose from, whatever the free value is
(60_exceptions.md R205). -/
theorem chooseService_mem (n : Nat) (first : Label) (rest : List Label) :
    chooseService n first rest ∈ first :: rest := by
  cases rest with
  | nil => simp [chooseService]
  | cons l ls =>
    rw [chooseService, List.getD_eq_getElem?_getD, List.getElem?_eq_getElem (Nat.mod_lt _ (by simp))]
    exact List.getElem_mem _

/-- All an idle step can do: with no service pending nothing changes, and otherwise one of the pending services runs
(70_reset_and_hazards.md R250, log entry 3). -/
theorem idleStep_cases (s : State) :
    (enabledServices s = [] ∧ idleStep s = .next s) ∨
      ∃ l ∈ enabledServices s, idleStep s = runLabel l { s with choices := s.choices + 1 } := by
  unfold idleStep
  cases h : enabledServices s with
  | nil => exact .inl ⟨rfl, rfl⟩
  | cons first rest => exact .inr ⟨_, chooseService_mem s.choices first rest, rfl⟩

/-! ### Runs of labels -/

@[simp] theorem runLabels_nil (s : State) : runLabels [] s = .next s := rfl

theorem runLabels_cons_next {l : Label} {s t : State} (h : runLabel l s = .next t) (ls : List Label) :
    runLabels (l :: ls) s = runLabels ls t := by
  simp [runLabels, h]

/-- A run that completes has a completing first label. -/
theorem runLabels_cons_inv {l : Label} {ls : List Label} {s u : State} (h : runLabels (l :: ls) s = .next u) :
    ∃ t, runLabel l s = .next t ∧ runLabels ls t = .next u := by
  simp only [runLabels] at h
  split at h
  · exact ⟨_, ‹_›, h⟩
  · cases h
  · cases h

theorem runLabels_append {ls : List Label} {s t : State} (h : runLabels ls s = .next t) (ms : List Label) :
    runLabels (ls ++ ms) s = runLabels ms t := by
  induction ls generalizing s with
  | nil => cases h; rfl
  | cons l ls ih =>
    obtain ⟨r, hr, h⟩ := runLabels_cons_inv h
    rw [List.cons_append, runLabels_cons_next hr, ih h]

/-- n ticks of a label that is always taken are n applications of its effect. -/
theorem runLabels_replicate {l : Label} {f : State → State} (h : ∀ s, runLabel l s = .next (f s)) (n : Nat)
    (s : State) : runLabels (List.replicate n l) s = .next (f^[n] s) := by
  induction n generalizing s with
  | zero => rfl
  | succ n ih => rw [List.replicate_succ, runLabels_cons_next (h s), ih, Function.iterate_succ_apply]

end Sys2Proof.Machine
end

