-- ==== Sys2Proof/Laws/Units.lean ====
section
/-! SUPPORT. What one PWM_TICK and one SVC_COM do to PCE, said once, and runs of ticks. -/

namespace Sys2Proof.Machine

variable (p : Params) (x : Pce)

/-- PCE between statement 2 and statement 3 of PWM_TICK: counted, and updated at the boundary
(40_pwm_commutation.md R108). -/
theorem Pce.tick_eq : x.tick p = Pce.deadTime p (if x.boundary then (x.count p).update else x.count p) := rfl

/-- Counting touches `cnt` and `dir` only (R108). -/
theorem Pce.count_frame : x.count p = { x with cnt := (x.count p).cnt, dir := (x.count p).dir } := by
  cases h : x.dir <;> simp [Pce.count, h]

/-- An UPDATE loads the compare values, and at a commutation event the configuration (R109). -/
theorem Pce.update_of_request (h : x.comReq = true) :
    x.update = { x with cmpA := x.cmpS, cfgA := x.cfgS, comReq := false, comIrq := true } := by
  simp [Pce.update, h]

theorem Pce.update_of_none (h : x.comReq = false) : x.update = { x with cmpA := x.cmpS } := by
  simp [Pce.update, h]

/-- A tick does not touch the enables, the FSM, the duty or the staged registers (R108, R109, R112). -/
theorem Pce.tick_frame :
    x.tick p = { x with
      cfgA := (x.tick p).cfgA, cmpA := (x.tick p).cmpA, comReq := (x.tick p).comReq, comIrq := (x.tick p).comIrq
      cnt := (x.tick p).cnt, dir := (x.tick p).dir, side := (x.tick p).side, dtc := (x.tick p).dtc } := by
  rw [Pce.tick_eq, Pce.count_frame]
  cases h : x.comReq <;> cases x.boundary <;> simp [Pce.deadTime, Pce.update]

@[simp] theorem Pce.tick_pceOn : (x.tick p).pceOn = x.pceOn := by rw [Pce.tick_frame]
@[simp] theorem Pce.tick_moe : (x.tick p).moe = x.moe := by rw [Pce.tick_frame]
@[simp] theorem Pce.tick_cmpS : (x.tick p).cmpS = x.cmpS := by rw [Pce.tick_frame]
@[simp] theorem Pce.tick_cfgS : (x.tick p).cfgS = x.cfgS := by rw [Pce.tick_frame]

/-- The dead-time generator after a tick (R112). -/
theorem Pce.tick_dtc (l : Leg) :
    (x.tick p).dtc.get l = if (x.tick p).side.get l ≠ x.side.get l then p.deadTime else x.dtc.get l - 1 := by
  rw [Pce.tick_eq, Pce.count_frame]
  cases h : x.comReq <;> cases x.boundary <;> simp [Pce.deadTime, Pce.update]

/-- The service that advances (R110, R119). -/
theorem Pce.service_of_idle (h : x.idle = true) :
    x.service p = { x with
      comIrq := false, running := true, idle := false, step := x.step + 1
      cfgS := pattern p (x.step + 1), cmpS := compares p x.duty (x.step + 1) } := by
  simp [Pce.service, Pce.advance, Pce.applyDuty, h]

/-- The service that stages the idle gap (R110, R119). -/
theorem Pce.service_of_active (h : x.idle = false) :
    x.service p = { x with
      comIrq := false, running := true, idle := true, cfgS := cfgFloat, cmpS := compares p x.duty x.step } := by
  simp [Pce.service, Pce.advance, Pce.applyDuty, h]

/-- The next step of the cycle, as a number (R110). -/
theorem step_succ_val (k : Fin 6) : (k + 1).val = (k.val + 1) % 6 := by revert k; decide

/-- n PWM ticks of a machine whose counter runs (R108). -/
theorem runLabels_pwmTicks {s : State} (h : s.pce.pceOn = true) (n : Nat) :
    runLabels (List.replicate n .pwmTick) s = .next (doPwmTick^[n] s) := by
  induction n generalizing s with
  | zero => rfl
  | succ n ih =>
    rw [List.replicate_succ, runLabels_cons_next (t := doPwmTick s) (by simp [h]), Function.iterate_succ_apply]
    exact ih (by simp [doPwmTick, h])

end Sys2Proof.Machine
end

