-- ==== Sys2Proof/Tests/Slice0.lean ====
section
/-! SUPPORT. The model's own tests. Expected values come from spec/95_test_vectors.md and from the tables in the rules,
cited at each test; the second part shows that the hypotheses of the obligations can be met. -/

set_option synthInstance.maxSize 1024

namespace Sys2Proof.Tests

open Sys2Proof.Machine

/-! ### Helpers -/

/-- The reference parameters of 00_scope.md R8. -/
def ref : Params := ⟨2048, 1024, 5, 0, roleTable, adcSlotTable⟩

/-- The parameters of 95_test_vectors.md B4, with a dead time. -/
def tiny (deadTime : Nat) : Params := ⟨4, 2, 13, deadTime, roleTable, adcSlotTable⟩

/-- The RESET state with given parameters and an all-zero buffer. -/
def base (p : Params) : State := State.resetWith p (Vector.replicate 16 0)

/-- RESET, then PWM.INIT's effect on PCE. -/
def started (p : Params) : State := (base p).withPce ((Pce.reset p).init p)

/-- RESET with acquisition on, the two handles of A9 and a given write position. -/
def acquiring (wr : Fin 8) : State :=
  (base ref).withAap
    { Aap.reset (Vector.replicate 16 0) with acqOn := true, halfCb := some 0xA1, fullCb := some 0xA2, wr := wr }

/-- RESET with a count and the four hardware timer slots. -/
def hts (hcnt : U16) (s0 s1 s2 s3 : HSlot) : State := (base ref).withHts ⟨hcnt, #v[s0, s1, s2, s3]⟩

/-- RESET with a tick and the five soft timer slots. -/
def stl (tick : U32) (s0 s1 s2 s3 s4 : SSlot) : State := (base ref).withStl ⟨tick, #v[s0, s1, s2, s3, s4]⟩

/-- What a function sees of the state after some labels, if all of them are enabled. -/
def after {α : Type} (ls : List Label) (s : State) (f : State → α) : Option α :=
  match runLabels ls s with
  | .next t => some (f t)
  | .fault _ => none
  | .refused _ => none

/-- What a function sees of the state after one command. -/
def afterCmd {α : Type} (i : Instr) (s : State) (f : State → α) : Option α :=
  match exec i s with
  | .next t => some (f t)
  | .fault _ => none
  | .refused _ => none

/-- What a function sees of the state after one step. -/
def afterStep {α : Type} (s : State) (f : State → α) : Option α :=
  match step s with
  | .next t => some (f t)
  | .fault _ => none
  | .refused _ => none

/-- The fault an outcome ends in, if it ends in one. -/
def faultOf : Result → Option Fault
  | .next _ => none
  | .fault r => some r
  | .refused _ => none

/-- Slots used below: (deadline, delta, cb, ie, pend). -/
def armed (d p : U16) (h : Handle) : HSlot := ⟨d, p, some h, true, false⟩
def hfree : HSlot := HSlot.free
def sfree : SSlot := SSlot.free

/-! ### The assembler's checks (30_encoding.md R89, R90) -/

theorem test_wf_handle : (Asm.htsReg 0x10000 4).assemble = none ∧
    (Asm.htsReg 0xFFFF 4).assemble = some [.htsReg 0xFFFF 4] := by decide

theorem test_wf_second_handle : (Asm.adcInit 1 0x10000).assemble = none ∧
    (Asm.adcInit 1 0xFFFF).assemble = some [.adcInit 1 0xFFFF] := by decide

theorem test_wf_slot : (Asm.htsUnreg 256).assemble = none ∧ (Asm.stlUnreg 256).assemble = none ∧
    (Asm.htsUnreg 255).assemble = some [.htsUnreg 255] := by decide

theorem test_wf_delta : (Asm.htsReg 1 65536).assemble = none ∧ (Asm.htsMod 0 65536).assemble = none ∧
    (Asm.htsMod 0 65535).assemble = some [.htsMod 0 65535] := by decide

theorem test_wf_word : (Asm.stlReg 1 4294967296).assemble = none ∧ (Asm.stlUpd 0 4294967296).assemble = none ∧
    (Asm.stlElapsed 4294967296 0).assemble = none ∧ (Asm.stlElapsed 0 4294967296).assemble = none ∧
    (Asm.stlReg 1 4294967295).assemble = some [.stlReg 1 0xFFFFFFFF] := by decide

theorem test_wf_duty : (Asm.pwmDuty 32768).assemble = none ∧ (Asm.pwmDuty (-32769)).assemble = none ∧
    (Asm.pwmDuty (-32768)).assemble = some [.pwmDuty 0x8000] ∧
    (Asm.pwmDuty 32767).assemble = some [.pwmDuty 0x7FFF] := by decide

/-- R90: PWM.BRAKE is PWM.LOW then PWM.COM; PWM.STOP is PWM.FLOAT. -/
theorem test_pseudo : Asm.brake.assemble = some [.pwmLow, .pwmCom] ∧ Asm.stop.assemble = some [.pwmFloat] := by decide

/-! ### Decoding: the words of 95_test_vectors.md B1 -/

theorem test_decode_pwmInit : decode (commandOfWords 0x10000000 0 0) = .ok .pwmInit := by decide
theorem test_decode_pwmFloat : decode (commandOfWords 0x11000000 0 0) = .ok .pwmFloat := by decide
theorem test_decode_pwmLow : decode (commandOfWords 0x12000000 0 0) = .ok .pwmLow := by decide
theorem test_decode_pwmDuty :
    decode (commandOfWords 0x13000000 0x0000FC00 0) = .ok (.pwmDuty (BitVec.ofInt 16 (-1024))) := by decide
theorem test_decode_pwmCom : decode (commandOfWords 0x14000000 0 0) = .ok .pwmCom := by decide
theorem test_decode_adcInit :
    decode (commandOfWords 0x200000A1 0x000000A2 0) = .ok (.adcInit 0x00A1 0x00A2) := by decide
theorem test_decode_htsReg : decode (commandOfWords 0x300000B1 0x00000004 0) = .ok (.htsReg 0x00B1 4) := by decide
theorem test_decode_htsUnreg : decode (commandOfWords 0x31020000 0 0) = .ok (.htsUnreg 2) := by decide
theorem test_decode_htsMod : decode (commandOfWords 0x32000000 0x0000000A 0) = .ok (.htsMod 0 10) := by decide
theorem test_decode_stlReg : decode (commandOfWords 0x400000C1 0x0000000A 0) = .ok (.stlReg 0x00C1 10) := by decide
theorem test_decode_stlUnreg : decode (commandOfWords 0x41040000 0 0) = .ok (.stlUnreg 4) := by decide
theorem test_decode_stlUpd : decode (commandOfWords 0x42010000 0x000000FA 0) = .ok (.stlUpd 1 250) := by decide
theorem test_decode_stlTs : decode (commandOfWords 0x43000000 0 0) = .ok .stlTs := by decide
theorem test_decode_stlElapsed :
    decode (commandOfWords 0x44000000 0xFFFFFFFE 4) = .ok (.stlElapsed 0xFFFFFFFE 4) := by decide

/-- B1: `C` is `W0`, then `W1`, then `W2`. -/
theorem test_word_order : commandOfWords 0x44000000 0xFFFFFFFE 0x00000004 = 0x44000000FFFFFFFE00000004 := by decide

/-- B1, R85: ignored bits; handle 0 is a handle (R95). -/
theorem test_decode_ignored :
    decode (commandOfWords 0x13FFFFFF 0xFFFFFC00 0xDEADBEEF) = .ok (.pwmDuty 0xFC00) ∧
    decode (commandOfWords 0x30000000 0x00010004 0) = .ok (.htsReg 0 4) := by decide

/-- B1, R84: the neighbours of every block of opcodes are illegal. -/
theorem test_decode_illegal :
    ([0x00, 0x0F, 0x15, 0x1F, 0x21, 0x2F, 0x33, 0x3F, 0x45, 0xFF] : List U8).all
      (fun op => decide (decodeFields ⟨op, 0, 0, 0, 0⟩ = .error (.illegalOpcode op))) = true := by decide

/-- B1: the canonical encodings. -/
theorem test_encode :
    encode (.pwmDuty (BitVec.ofInt 16 (-1024))) = 0x130000000000FC0000000000 ∧
    encode (.adcInit 0x00A1 0x00A2) = 0x200000A1000000A200000000 ∧
    encode (.htsUnreg 2) = 0x310200000000000000000000 ∧
    encode (.stlUpd 1 250) = 0x42010000000000FA00000000 ∧
    encode (.stlElapsed 0xFFFFFFFE 4) = 0x44000000FFFFFFFE00000004 := by decide

/-- The opcode table's `match` of each row, as the host gives it, is the row's command, and a shorter word of 32 bits is
`W0`. -/
theorem test_table_words :
    decodeTableWord 96 0x100000000000000000000000 = some .pwmInit ∧
    decodeTableWord 96 0x320000000000000000000000 = some (.htsMod 0 0) ∧
    decodeTableWord 96 0x440000000000000000000000 = some (.stlElapsed 0 0) ∧
    decodeTableWord 32 0x43000000 = some .stlTs ∧
    decodeTableWord 96 0x450000000000000000000000 = none := by decide

/-- The response of the command a table word stands for, run as the first step after reset. -/
def firstResponse (w : Nat) : Option (List Output) :=
  match step (State.reset.withFetchWord 96 w) with
  | .next t => some t.trace
  | .fault _ => none
  | .refused _ => none

/-- Every row of the table runs as the first step after reset, with the response of R83 (operands zero). -/
theorem test_first_step_pwm :
    firstResponse 0x100000000000000000000000 = some [.response 0] ∧
    firstResponse 0x110000000000000000000000 = some [.response 0] ∧
    firstResponse 0x120000000000000000000000 = some [.response 0] ∧
    firstResponse 0x130000000000000000000000 = some [.response 0] ∧
    firstResponse 0x140000000000000000000000 = some [.response 0] ∧
    firstResponse 0x200000000000000000000000 = some [.response 0] := by decide

theorem test_first_step_timers :
    firstResponse 0x300000000000000000000000 = some [.response 0xFFFFFFFE] ∧
    firstResponse 0x300000000000000400000000 = some [.response 0] ∧
    firstResponse 0x310000000000000000000000 = some [.response 0] ∧
    firstResponse 0x320000000000000000000000 = some [.response 0] ∧
    firstResponse 0x400000000000000000000000 = some [.response 0] ∧
    firstResponse 0x410000000000000000000000 = some [.response 0] ∧
    firstResponse 0x420000000000000000000000 = some [.response 0] ∧
    firstResponse 0x430000000000000000000000 = some [.response 0] ∧
    firstResponse 0x440000000000000000000000 = some [.response 0] ∧
    firstResponse 0x450000000000000000000000 = some [.response 0xFFFFFFFD] := by decide

/-! ### PCE -/

/-- R93: the pattern constants. -/
theorem test_patterns :
    bridgeCode cfgFloat = 0x222 ∧ bridgeCode cfgLowSide = 0x333 ∧
    bridgeCode (pattern ref 0) = 0x2BB ∧ bridgeCode (pattern ref 1) = 0xB2B ∧ bridgeCode (pattern ref 2) = 0xBB2 ∧
    bridgeCode (pattern ref 3) = 0x2BB ∧ bridgeCode (pattern ref 4) = 0xB2B ∧
    bridgeCode (pattern ref 5) = 0xBB2 := by decide

/-- The compare values of a signed duty, in the order (U, V, W). -/
def cmp (p : Params) (duty : Int) (s : Fin 6) : Nat × Nat × Nat :=
  let c := compares p (BitVec.ofInt 16 duty) s
  (c.u.toNat, c.v.toNat, c.w.toNat)

/-- The table of R100, step 0. -/
theorem test_apply_duty_corners :
    cmp ref 0 0 = (1024, 1024, 1024) ∧ cmp ref 31 0 = (1024, 1024, 1024) ∧ cmp ref 32 0 = (1025, 1023, 1024) ∧
    cmp ref (-1) 0 = (1024, 1024, 1024) ∧ cmp ref (-31) 0 = (1024, 1024, 1024) ∧
    cmp ref (-32) 0 = (1023, 1025, 1024) ∧ cmp ref 32767 0 = (2047, 1, 1024) ∧
    cmp ref (-32768) 0 = (0, 2048, 1024) := by decide

/-- B2, every step, for 3200 and for -3200. -/
theorem test_apply_duty_steps :
    cmp ref 3200 0 = (1124, 924, 1024) ∧ cmp ref 3200 1 = (1124, 1024, 924) ∧ cmp ref 3200 2 = (1024, 1124, 924) ∧
    cmp ref 3200 3 = (924, 1124, 1024) ∧ cmp ref 3200 4 = (924, 1024, 1124) ∧ cmp ref 3200 5 = (1024, 924, 1124) ∧
    cmp ref (-3200) 1 = (924, 1024, 1124) ∧ cmp ref (-3200) 5 = (1024, 1124, 924) := by decide

/-- B2, saturation, PWM_TOP = 1000. -/
theorem test_apply_duty_saturates :
    cmp ⟨1000, 500, 5, 0, roleTable, adcSlotTable⟩ 16000 0 = (1000, 0, 500) ∧
    cmp ⟨1000, 500, 5, 0, roleTable, adcSlotTable⟩ 16032 0 = (1000, 0, 500) ∧
    cmp ⟨1000, 500, 5, 0, roleTable, adcSlotTable⟩ 32767 0 = (1000, 0, 500) ∧
    cmp ⟨1000, 500, 5, 0, roleTable, adcSlotTable⟩ (-32768) 0 = (0, 1000, 500) ∧
    cmp ⟨1000, 300, 5, 0, roleTable, adcSlotTable⟩ 12800 0 = (700, 0, 300) := by decide

/-- A1: the state after RESET and PWM.INIT. -/
theorem test_pwmInit : afterCmd .pwmInit (base ref) (fun t =>
      (t.pce.running, t.pce.idle, t.pce.step, t.pce.duty, bridgeCode t.pce.cfgS, bridgeCode t.pce.cfgA)) =
        some (false, true, 0, 0, 0x222, 0x222) ∧
    afterCmd .pwmInit (base ref) (fun t =>
      (t.pce.cmpS, t.pce.cmpA, t.pce.comReq, t.pce.comIrq, t.pce.moe, t.pce.pceOn, t.gates)) =
        some (⟨1024, 1024, 1024⟩, ⟨1024, 1024, 1024⟩, false, false, true, true,
          ⟨false, false, false⟩, ⟨false, false, false⟩) := by decide

/-- R103 in a running engine: a pending request and interrupt are dropped, the bridge floats at once (R242). -/
theorem test_pwmInit_running :
    afterCmd .pwmInit ((started ref).withPce
      { (started ref).pce with
        cfgA := pattern ref 2, comReq := true, comIrq := true, moe := false, step := 2
        idle := false, duty := 99, cnt := 7, dir := .down }) (fun t => t.pce) = some (started ref).pce := by decide

/-- R104, R105. -/
theorem test_pwmFloat : afterCmd .pwmFloat (started ref) (fun t => (bridgeCode t.pce.cfgS, t.pce.comReq)) =
    some (0x222, true) := by decide
theorem test_pwmLow : afterCmd .pwmLow (started ref) (fun t => (bridgeCode t.pce.cfgS, bridgeCode t.pce.cfgA,
    t.pce.comReq)) = some (0x333, 0x222, false) := by decide

/-- R106: PWM.DUTY #-1024 at step 0; A4: PWM.DUTY #3200 leaves the active values. -/
theorem test_pwmDuty :
    afterCmd (.pwmDuty 0xFC00) (started ref) (fun t => t.pce.cmpS) = some ⟨992, 1056, 1024⟩ ∧
    afterCmd (.pwmDuty 3200) (started ref) (fun t => (t.pce.cmpS, t.pce.cmpA)) =
      some (⟨1124, 924, 1024⟩, ⟨1024, 1024, 1024⟩) := by decide

theorem test_pwmCom : afterCmd .pwmCom (started ref) (fun t => (t.pce.comReq, t.trace)) =
    some (true, [.response 0]) := by decide

/-- R110: the example after PWM.INIT, and the wrap from step 5 to step 0. -/
theorem test_svcCom_advances :
    after [.svcCom] ((started ref).withPce { (started ref).pce with comIrq := true }) (fun t =>
      (t.pce.step, t.pce.idle, t.pce.running, bridgeCode t.pce.cfgS, t.pce.cmpS, t.trace)) =
        some (1, false, true, 0xB2B, ⟨1024, 1024, 1024⟩, [.ind .com]) ∧
    after [.svcCom] ((started ref).withPce { (started ref).pce with comIrq := true, step := 5 }) (fun t =>
      (t.pce.step, t.pce.idle, bridgeCode t.pce.cfgS)) = some (0, false, 0x2BB) := by decide

/-- R119: from an active state the idle gap is staged and the step stays. -/
theorem test_svcCom_gap :
    after [.svcCom] ((started ref).withPce { (started ref).pce with comIrq := true, step := 1, idle := false })
      (fun t => (t.pce.step, t.pce.idle, bridgeCode t.pce.cfgS)) = some (1, true, 0x222) := by decide

/-- Machine of B4 one period after the commutation to 0xB2B, at a given count and direction. -/
def inPeriod (deadTime : Nat) (cnt : U16) (dir : Dir) (side : PerLeg Side) (dtc : PerLeg Nat) : State :=
  (started (tiny deadTime)).withPce { (started (tiny deadTime)).pce with
    cfgA := pattern (tiny deadTime) 1, cmpA := ⟨3, 2, 1⟩, cmpS := ⟨3, 2, 1⟩, duty := 8192, step := 1,
    cnt := cnt, dir := dir, side := side, dtc := dtc }

/-- What B4 and B5 list of a tick. -/
def waves (t : State) : Nat × PerLeg Nat × PerLeg Bool × PerLeg Bool :=
  (t.pce.cnt.toNat, t.pce.dtc, t.gates.1, t.gates.2)

/-- B4, ticks 1, 3 and 8. -/
theorem test_pwmTick :
    after [.pwmTick] (inPeriod 0 0 .up ⟨.h, .l, .h⟩ ⟨0, 0, 0⟩) waves =
      some (1, ⟨0, 0, 0⟩, ⟨true, false, false⟩, ⟨false, false, true⟩) ∧
    after [.pwmTick] (inPeriod 0 2 .up ⟨.h, .l, .l⟩ ⟨0, 0, 0⟩) waves =
      some (3, ⟨0, 0, 0⟩, ⟨false, false, false⟩, ⟨true, false, true⟩) ∧
    after [.pwmTick] (inPeriod 0 1 .down ⟨.h, .l, .l⟩ ⟨0, 0, 0⟩) waves =
      some (0, ⟨0, 0, 0⟩, ⟨true, false, true⟩, ⟨false, false, false⟩) := by decide

/-- B5, ticks 1, 3 and 8: the same with DEAD_TIME = 1. -/
theorem test_pwmTick_deadTime :
    after [.pwmTick] (inPeriod 1 0 .up ⟨.h, .l, .h⟩ ⟨1, 0, 1⟩) waves =
      some (1, ⟨0, 0, 1⟩, ⟨true, false, false⟩, ⟨false, false, false⟩) ∧
    after [.pwmTick] (inPeriod 1 2 .up ⟨.h, .l, .l⟩ ⟨0, 0, 0⟩) waves =
      some (3, ⟨1, 0, 0⟩, ⟨false, false, false⟩, ⟨false, false, true⟩) ∧
    after [.pwmTick] (inPeriod 1 1 .down ⟨.h, .l, .l⟩ ⟨0, 0, 0⟩) waves =
      some (0, ⟨0, 0, 1⟩, ⟨true, false, false⟩, ⟨false, false, false⟩) := by decide

/-- B4: the counter turns at PWM_TOP; the boundary tick applies a requested configuration and raises the interrupt. -/
theorem test_pwmTick_update :
    after [.pwmTick] (inPeriod 0 3 .up ⟨.l, .l, .l⟩ ⟨0, 0, 0⟩) (fun t => (t.pce.cnt, t.pce.dir)) = some (4, .down) ∧
    after [.pwmTick] ((started (tiny 0)).withPce { (started (tiny 0)).pce with
      cfgS := pattern (tiny 0) 1, cmpS := ⟨3, 2, 1⟩, comReq := true, cnt := 1, dir := .down })
      (fun t => (t.pce.cnt, t.pce.dir, bridgeCode t.pce.cfgA, t.pce.cmpA, t.pce.comReq, t.pce.comIrq)) =
        some (0, .up, 0xB2B, ⟨3, 2, 1⟩, false, true) := by decide

/-- B3: 0x2BB with compare values (1124, 924, 1024) at two counts around a compare value. -/
theorem test_gates :
    ((started ref).withPce { (started ref).pce with
      cfgA := pattern ref 0, cmpA := ⟨1124, 924, 1024⟩, cnt := 923, side := ⟨.h, .h, .l⟩ }).gates =
        (⟨true, true, false⟩, ⟨false, false, false⟩) ∧
    ((started ref).withPce { (started ref).pce with
      cfgA := pattern ref 0, cmpA := ⟨1124, 924, 1024⟩, cnt := 924, side := ⟨.h, .l, .l⟩ }).gates =
        (⟨true, false, false⟩, ⟨false, true, false⟩) ∧
    ((started ref).withPce { (started ref).pce with cfgA := cfgLowSide }).gates =
        (⟨false, false, false⟩, ⟨true, true, true⟩) := by decide

/-- R114, B6. -/
theorem test_brk :
    after [.brk] ((started ref).withPce { (started ref).pce with cfgA := cfgLowSide }) (fun t => (t.pce.moe, t.gates)) =
      some (false, ⟨false, false, false⟩, ⟨false, false, false⟩) := by decide

/-- R108, R142: PWM_TICK and DMA_BEAT are not enabled after RESET (B10). -/
theorem test_not_enabled :
    faultOf (runLabel .pwmTick (base ref)) = some .stepNotEnabled ∧
    faultOf (runLabel (.dmaBeat 1 2) (base ref)) = some .stepNotEnabled := by decide

/-! ### AAP -/

/-- B7: ADC.INIT at wr = 5 with err_cnt = 9. -/
theorem test_adcInit :
    afterCmd (.adcInit 1 2) ((acquiring 5).withAap { (acquiring 5).aap with tcIrq := true, errCnt := 9 }) (fun t =>
      (t.aap.wr, t.aap.htIrq, t.aap.tcIrq, t.aap.teIrq, t.aap.halfCb, t.aap.fullCb, t.aap.errCnt)) =
        some (0, false, false, false, some 1, some 2, 9) := by decide

/-- R142's example, and B7 at wr = 7. -/
theorem test_dmaBeat :
    after [.dmaBeat 0x0123 0x0456] (acquiring 3) (fun t =>
      (readSample t.aap.buf 6, readSample t.aap.buf 7, t.aap.htIrq, t.aap.tcIrq, t.aap.wr)) =
        some (0x0123, 0x0456, true, false, 4) ∧
    after [.dmaBeat 0xAAAA 0x5555] (acquiring 7) (fun t =>
      (readSample t.aap.buf 14, readSample t.aap.buf 15, t.aap.htIrq, t.aap.tcIrq, t.aap.wr)) =
        some (0xAAAA, 0x5555, false, true, 0) := by decide

/-- R143, R144. -/
theorem test_adc_services :
    after [.svcHt] ((acquiring 4).withAap { (acquiring 4).aap with htIrq := true }) (fun t => (t.aap.htIrq, t.trace)) =
      some (false, [.ind .adcHt, .cbAdc 0xA1 false (Vector.replicate 16 0)]) ∧
    after [.svcTc] ((acquiring 0).withAap { (acquiring 0).aap with tcIrq := true }) (fun t => (t.aap.tcIrq, t.trace)) =
      some (false, [.ind .adcTc, .cbAdc 0xA2 true (Vector.replicate 16 0)]) := by decide

/-- B7: a merged error counts once; the counter saturates. -/
theorem test_dma_error :
    after [.dmaErr, .dmaErr, .svcTe] (acquiring 2) (fun t => (t.aap.errCnt, t.aap.wr, t.aap.acqOn, t.trace)) =
      some (1, 2, true, [.ind .adcErr]) ∧
    after [.dmaErr, .svcTe] ((acquiring 2).withAap { (acquiring 2).aap with errCnt := 0xFFFFFFFF })
      (fun t => t.aap.errCnt) = some 0xFFFFFFFF := by decide

/-- R141: samples 8 and 15 are R2_U_A1 and R2_ISENSE; the indices R148 lists for V and W; A11: the consumer's filter. -/
theorem test_adc_table :
    State.reset.params.adcSlots[8] = ⟨2, .phaseU, 1⟩ ∧ State.reset.params.adcSlots[15] = ⟨2, .current, 2⟩ ∧
    sameNamedSlots ref false .phaseV = [2, 3] ∧ sameNamedSlots ref true .phaseW = [12, 13] ∧
    consumerFilter 240 256 260 = 246 ∧ consumerFilter 480 512 516 = 491 ∧ consumerFilter 720 768 772 = 736 := by decide

/-! ### HTS -/

/-- A5: too short (also with all slots occupied), no slot, and the freed slot. -/
theorem test_htsReg_refused :
    afterCmd (.htsReg 1 3) (base ref) (fun t => (t.hts, t.trace)) =
      some (Hts.reset, [.response 0xFFFFFFFE]) ∧
    afterCmd (.htsReg 5 10) (hts 0 (armed 10 10 0xB0) (armed 20 20 0xB1) (armed 30 30 0xB2) (armed 40 40 0xB3))
      (fun t => t.trace) = some [.response 0xFFFFFFFF] ∧
    afterCmd (.htsReg 5 3) (hts 0 (armed 10 10 0xB0) (armed 20 20 0xB1) (armed 30 30 0xB2) (armed 40 40 0xB3))
      (fun t => t.trace) = some [.response 0xFFFFFFFE] := by decide

/-- A7 and B8: delta = 4 is accepted, the deadline wraps, a stale match is dropped, the lowest free slot is taken. -/
theorem test_htsReg :
    afterCmd (.htsReg 0xB1 4) (hts 100 hfree hfree hfree hfree) (fun t => (t.hts.slot 0, t.trace)) =
      some (⟨104, 4, some 0xB1, true, false⟩, [.response 0]) ∧
    afterCmd (.htsReg 0xB1 4) (hts 0xFFFE (armed 1 9 7) ⟨5, 5, none, false, true⟩ hfree hfree)
      (fun t => (t.hts.slot 1, t.hts.slot 0, t.trace)) =
      some (⟨0x0002, 4, some 0xB1, true, false⟩, armed 1 9 7, [.response 1]) := by decide

/-- B8: UNREG leaves the pending match; slot 4 is ignored. -/
theorem test_htsUnreg :
    afterCmd (.htsUnreg 0) (hts 0x14 ⟨0x14, 4, some 0xB1, true, true⟩ hfree hfree hfree) (fun t => t.hts.slot 0) =
      some ⟨0x14, 4, none, false, true⟩ ∧
    afterCmd (.htsUnreg 4) (hts 0x14 (armed 1 9 7) hfree hfree hfree) (fun t => (t.hts, t.trace)) =
      some ((hts 0x14 (armed 1 9 7) hfree hfree hfree).hts, [.response 0]) := by decide

/-- B8: HTS.MOD on a free slot and on slot 200. -/
theorem test_htsMod :
    afterCmd (.htsMod 1 2) (hts 0 (armed 1 9 7) hfree hfree hfree) (fun t => t.hts.slot 1) =
      some ⟨0, 2, none, false, false⟩ ∧
    afterCmd (.htsMod 200 9) (hts 0 (armed 1 9 7) hfree hfree hfree) (fun t => (t.hts, t.trace)) =
      some ((hts 0 (armed 1 9 7) hfree hfree hfree).hts, [.response 0]) := by decide

/-- B8: two equal deadlines match on one tick; a disabled channel does not; the count wraps. -/
theorem test_hcntTick :
    after [.hcntTick] (hts 3 (armed 4 4 1) (armed 4 4 2) ⟨4, 4, none, false, false⟩ (armed 5 5 3)) (fun t =>
      (t.hts.hcnt, (t.hts.slot 0).pend, (t.hts.slot 1).pend, (t.hts.slot 2).pend, (t.hts.slot 3).pend)) =
        some (4, true, true, false, false) ∧
    after [.hcntTick] (hts 0xFFFF (armed 0 4 1) hfree hfree hfree) (fun t => (t.hts.hcnt, (t.hts.slot 0).pend)) =
        some (0, true) := by decide

/-- A7 and B8: the strobe with the matched deadline and the reload; the self-healing arm. -/
theorem test_svcHts :
    after [.svcHts 0] (hts 104 ⟨104, 4, some 0xB1, true, true⟩ hfree hfree hfree) (fun t => (t.hts.slot 0, t.trace)) =
      some (⟨108, 4, some 0xB1, true, false⟩, [.cbHts 0xB1 0 104]) ∧
    after [.svcHts 0] (hts 0x14 ⟨0x14, 4, none, true, true⟩ hfree hfree hfree) (fun t => (t.hts.slot 0, t.trace)) =
      some (⟨0x18, 4, none, false, false⟩, []) := by decide

/-! ### STL -/

/-- A10: the sixth registration is refused; a freed slot is reused. -/
theorem test_stlReg :
    afterCmd (.stlReg 0xC5 100) (stl 0 ⟨some 0, 0, 100⟩ ⟨some 1, 0, 100⟩ ⟨some 2, 0, 100⟩ ⟨some 3, 0, 100⟩
      ⟨some 4, 0, 100⟩) (fun t => t.trace) = some [.response 0xFFFFFFFF] ∧
    afterCmd (.stlReg 0xC9 5) (stl 7 ⟨some 0, 0, 100⟩ ⟨some 1, 0, 100⟩ ⟨none, 0, 100⟩ ⟨some 3, 0, 100⟩
      ⟨some 4, 0, 100⟩) (fun t => (t.stl.slot 2, t.trace)) = some (⟨some 0xC9, 7, 5⟩, [.response 2]) := by decide

/-- R181, B9: slot 4 is the last slot, slot 5 is ignored. -/
theorem test_stlUnreg :
    afterCmd (.stlUnreg 4) (stl 9 sfree sfree sfree sfree ⟨some 4, 1, 100⟩) (fun t => t.stl.slot 4) =
      some ⟨none, 1, 100⟩ ∧
    afterCmd (.stlUnreg 5) (stl 9 sfree sfree sfree sfree ⟨some 4, 1, 100⟩) (fun t => (t.stl.slot 4, t.trace)) =
      some (⟨some 4, 1, 100⟩, [.response 0]) := by decide

/-- R182's example and B9: the period only; slot 255 is ignored. -/
theorem test_stlUpd :
    afterCmd (.stlUpd 1 10) (stl 120 sfree ⟨some 1, 100, 50⟩ sfree sfree sfree) (fun t => t.stl.slot 1) =
      some ⟨some 1, 100, 10⟩ ∧
    afterCmd (.stlUpd 255 1) (stl 120 sfree ⟨some 1, 100, 50⟩ sfree sfree sfree) (fun t => (t.stl.slot 1, t.trace)) =
      some (⟨some 1, 100, 50⟩, [.response 0]) := by decide

/-- R184. -/
theorem test_stlTs : afterCmd .stlTs (stl 0x00012345 sfree sfree sfree sfree sfree) (fun t => t.trace) =
    some [.response 0x00012345] := by decide

/-- B9, tick = 3. -/
theorem test_stlElapsed :
    ([(0xFFFFFFFE, 4), (0xFFFFFFFE, 5), (3, 0), (4, 0), (0, 2), (0, 3)] : List (U32 × U32)).map (fun a =>
      afterCmd (.stlElapsed a.1 a.2) (stl 3 sfree sfree sfree sfree sfree) (fun t => t.trace)) =
        [some [.response 1], some [.response 0], some [.response 0], some [.response 1], some [.response 1],
          some [.response 0]] := by decide

/-- A6: strict comparison, and across the wrap of the tick. -/
theorem test_sysTick :
    after [.sysTick] (stl 102 ⟨some 0xC1, 100, 3⟩ sfree sfree sfree sfree) (fun t => (t.stl.slot 0, t.trace)) =
      some (⟨some 0xC1, 100, 3⟩, []) ∧
    after [.sysTick] (stl 103 ⟨some 0xC1, 100, 3⟩ sfree sfree sfree sfree) (fun t => (t.stl.slot 0, t.trace)) =
      some (⟨some 0xC1, 104, 3⟩, [.cbStl 0xC1 0]) ∧
    after [.sysTick] (stl 1 ⟨some 0xC1, 0xFFFFFFFE, 3⟩ sfree sfree sfree sfree) (fun t => (t.stl.slot 0, t.trace)) =
      some (⟨some 0xC1, 2, 3⟩, [.cbStl 0xC1 0]) := by decide

/-- B9: two slots fire in one tick, in ascending order; a period of 0xFFFFFFFF never fires. -/
theorem test_sysTick_order :
    after [.sysTick] (stl 3 ⟨some 0xC1, 2, 1⟩ ⟨some 0xC2, 0, 3⟩ sfree ⟨some 9, 4, 0xFFFFFFFF⟩ sfree)
      (fun t => t.trace) = some [.cbStl 0xC1 0, .cbStl 0xC2 1] := by decide

/-! ### The whole machine -/

/-- B10: RESET of a running machine gives the reset values and all gates off. -/
theorem test_reset :
    after [.reset] ((started ref).withHts ⟨9, #v[armed 1 2 3, hfree, hfree, hfree]⟩) (fun t =>
      (t.pce, t.hts, t.stl, t.trace, t.gates)) =
        some (Pce.reset ref, Hts.reset, Stl.reset, [], ⟨false, false, false⟩, ⟨false, false, false⟩) := by decide

/-- R250 and log entry 3: with an empty agenda a single pending service is taken; with none pending the state stays. -/
theorem test_idle :
    afterStep (base ref) id = some (base ref) ∧
    afterStep ((acquiring 2).withAap { (acquiring 2).aap with teIrq := true })
      (fun t => (t.aap.teIrq, t.aap.errCnt, t.trace, t.choices)) = some (false, 1, [.ind .adcErr], 1) := by decide

/-- R87: the bit-level forms. -/
theorem test_strobe_words :
    (Output.cbHts 0x00B1 2 104).words = [0x00B10200, 0x00000068] ∧ (Output.cbStl 0x00C1 4).words = [0x00C10400] := by
  decide

/-! ### Witnesses: the hypotheses of the obligations can be met

One theorem for each obligation that has hypotheses, named witness_<obligation>; where a statement has several clauses, a
witness for each, at the boundary of its range. -/

theorem ref_valid : ref.Valid := by decide

theorem ref_centre : compares ref 0 0 = PerLeg.all 1024 := by decide

/-- A machine that drives step 1 with duty 3200 and has staged the idle gap, at a given count and direction. -/
def driving (cnt : U16) (dir : Dir) (comReq : Bool) : State :=
  (started ref).withPce { (started ref).pce with
    running := true, step := 1, duty := 3200, cfgA := pattern ref 1, cmpS := ⟨1124, 1024, 924⟩
    cmpA := ⟨1124, 1024, 924⟩, cnt := cnt, dir := dir, comReq := comReq }

theorem driving_inv {cnt : U16} {dir : Dir} {comReq : Bool} (h1 : dir = .up → cnt < 2048)
    (h2 : dir = .down → 0 < cnt ∧ cnt ≤ 2048) : Inv (driving cnt dir comReq) where
  params := ref_valid
  pce := {
    cmpS_current := by show (⟨1124, 1024, 924⟩ : PerLeg U16) = compares ref 3200 1; decide
    cmpA_le := forall_leg.2 (by simp [driving, PerLeg.get]; decide)
    staged := .inl (.inl rfl)
    active := .inr ⟨rfl, 3200, by show (⟨1124, 1024, 924⟩ : PerLeg U16) = compares ref 3200 1; decide⟩
    advance_still := by intro h; cases h
    comIrq_on := by intro h; cases h
    up_lt := h1
    down_pos := h2
    dtc_le := forall_leg.2 (by simp [driving, started, Pce.init, Pce.applyDuty, PerLeg.get, PerLeg.all])
    off := by intro h; cases h }
  aap := ⟨(by intro h; cases h), fun _ => ⟨rfl, rfl, rfl, rfl, rfl⟩⟩
  hts := by intro i; fin_cases i <;> exact fun _ => rfl

theorem witness_EncodeOfDecodeKeepsTheNamedBits :
    decode 0x13FFFFFFFFFFFC00DEADBEEF = .ok (.pwmDuty 0xFC00) := by decide

theorem witness_IgnoredBitsDoNotMatter :
    decode 0x130000000000FC0000000000 = .ok (.pwmDuty 0xFC00) ∧
    (0x13FFFFFFFFFFFC00DEADBEEF : Command) &&& (Instr.pwmDuty 0xFC00).namedBits =
      0x130000000000FC0000000000 &&& (Instr.pwmDuty 0xFC00).namedBits := by decide

theorem witness_IllegalCommandsOnlyRespond : ∃ e, decode 0x450000000000000000000000 = .error e := ⟨_, rfl⟩

theorem witness_StepRunsTheDecodedCommand :
    ({ base ref with agenda := [.cmd 0x310200000000000000000000, .sysTick] } : State).agenda =
      .cmd 0x310200000000000000000000 :: [.sysTick] ∧
    decode 0x310200000000000000000000 = .ok (.htsUnreg 2) := by decide

/-- An enabled and a disabled label at the head of the agenda. -/
theorem witness_StepTakesExactlyTheEnabledLabels :
    ({ started ref with agenda := [.pwmTick] } : State).agenda = .pwmTick :: [] ∧ (started ref).pce.pceOn = true ∧
    ({ base ref with agenda := [.pwmTick] } : State).agenda = .pwmTick :: [] ∧ (base ref).pce.pceOn = false := by decide

theorem witness_AgendaIsTakenInOrder : ∃ t, runLabels [.cmd (encode .pwmCom), .sysTick] (base ref) = .next t :=
  ⟨_, rfl⟩

theorem witness_EachUnitIsWrittenByItsOwnLabels :
    (∃ t, runLabel (.dmaBeat 1 2) (acquiring 3) = .next t) ∧ Label.dmaBeat 1 2 ≠ .reset ∧
    unitOf (.dmaBeat 1 2) ≠ some .pce := ⟨⟨_, rfl⟩, by decide, by decide⟩

theorem witness_InputEventsOfTwoUnitsCommute :
    isInputEvent .hcntTick = true ∧ isInputEvent (.dmaBeat 1 2) = true ∧ unitOf .hcntTick ≠ unitOf (.dmaBeat 1 2) ∧
    ∃ t, runLabels [.hcntTick, .dmaBeat 1 2] (acquiring 3) = .next t := ⟨rfl, rfl, by decide, ⟨_, rfl⟩⟩

/-- No service pending, and two. -/
theorem witness_PendingServicesAreTaken :
    (base ref).agenda = [] ∧ (base ref).pendingCount = 0 ∧
    0 < ((acquiring 2).withAap { (acquiring 2).aap with teIrq := true, htIrq := true }).pendingCount := by decide

theorem witness_EveryStepKeepsTheInvariants :
    Inv (driving 5 .up false) ∧ ∃ t, step (driving 5 .up false) = .next t :=
  ⟨driving_inv (by decide) (by decide), ⟨_, rfl⟩⟩

theorem witness_InvariantsBoundTheRegisters :
    Inv (driving 5 .up false) ∧ (driving 5 .up false).params.roles = roleTable :=
  ⟨driving_inv (by decide) (by decide), rfl⟩

theorem witness_SwitchingLegsAreThoseOfTheStep :
    Inv (driving 5 .up false) ∧ ∃ l, ((driving 5 .up false).pce.cfgA.get l).mode = .pwm :=
  ⟨driving_inv (by decide) (by decide), ⟨.u, by decide⟩⟩

theorem witness_ApplyDutySaturates : ref.Valid ∧ (tiny 3).Valid ∧ (⟨1, 0, 0, 0, roleTable, adcSlotTable⟩ : Params).Valid := by decide

/-- The words of the five PCE commands, and a state with valid parameters. -/
theorem witness_PwmInitFloatsTheBridge :
    (0x100000000000000000000000 : Command).extractLsb' 88 8 = 0x10 ∧ (started ref).params.Valid := by decide

theorem witness_PwmFloatStagesAndRequests : (0x110000000000000000000000 : Command).extractLsb' 88 8 = 0x11 := by decide
theorem witness_PwmLowOnlyStages : (0x120000000000000000000000 : Command).extractLsb' 88 8 = 0x12 := by decide

theorem witness_PwmDutyStagesTheCompareValues :
    (0x130000000000FC0000000000 : Command).extractLsb' 88 8 = 0x13 ∧ (driving 5 .up false).params.Valid := by decide

theorem witness_PwmComOnlyRequests :
    (0x140000000000000000000000 : Command).extractLsb' 88 8 = 0x14 ∧ (started ref).pce.comReq = false ∧
    (driving 5 .up true).pce.comReq = true := by decide

/-- Counting up to below and to PWM_TOP, counting down to above and to 0, with and without a request. -/
theorem witness_PwmTickCountsUpdatesAndDelays :
    (Inv (driving 2046 .up false) ∧ (driving 2046 .up false).pce.pceOn = true) ∧
    (Inv (driving 2047 .up true) ∧ (driving 2047 .up true).pce.pceOn = true) ∧
    (Inv (driving 2 .down true) ∧ (driving 2 .down true).pce.pceOn = true) ∧
    (Inv (driving 1 .down false) ∧ (driving 1 .down false).pce.pceOn = true) ∧
    (Inv (driving 1 .down true) ∧ (driving 1 .down true).pce.pceOn = true) :=
  ⟨⟨driving_inv (by decide) (by decide), rfl⟩, ⟨driving_inv (by decide) (by decide), rfl⟩,
    ⟨driving_inv (by decide) (by decide), rfl⟩, ⟨driving_inv (by decide) (by decide), rfl⟩,
    ⟨driving_inv (by decide) (by decide), rfl⟩⟩

/-- PCE of a leg U with a given configuration and side, outputs enabled, no dead time running, count 5, compare value c. -/
def legU (c : LegCfg) (cmpA : U16) (side : Side) : Pce :=
  { (started ref).pce with cfgA := ⟨c, legOff, legOff⟩, cmpA := ⟨cmpA, 0, 0⟩, cnt := 5, side := ⟨side, .l, .l⟩ }

/-- The four configurations of R113's table; the switching leg at the count that equals its compare value and below. -/
theorem witness_GateSignalsOfEachConfiguration :
    (([(legOff, 0, .l), (legLowSide, 0, .l), (legPwm, 5, .l), (legPwm, 6, .h), (⟨.forcedHigh, true, true⟩, 0, .h)] :
      List (LegCfg × U16 × Side)).all fun a =>
        let x := legU a.1 a.2.1 a.2.2
        x.moe && decide (x.dtc.get .u = 0) && decide (x.side.get .u = if x.ref .u then .h else .l) &&
          decide (x.cfgA.get .u = a.1)) = true ∧
    (base ref).pce.moe = false := by decide

theorem witness_DeadTimeHoldsBothSwitchesOff :
    (∃ t, runLabel .pwmTick (inPeriod 2 2 .up ⟨.h, .l, .l⟩ ⟨0, 0, 0⟩) = .next t ∧
      t.pce.side.get .u ≠ (inPeriod 2 2 .up ⟨.h, .l, .l⟩ ⟨0, 0, 0⟩).pce.side.get .u) ∧
    1 < (inPeriod 2 2 .up ⟨.h, .l, .l⟩ ⟨0, 0, 0⟩).params.deadTime := ⟨⟨_, rfl, by decide⟩, by decide⟩

theorem witness_OnePeriodIsOneUpdate :
    (started ref).params.Valid ∧ (started ref).pce.pceOn = true ∧ (started ref).pce.cnt = 0 ∧
    (started ref).pce.dir = .up := by decide

/-- Compare values 0, in between, and PWM_TOP, without and with a request. -/
theorem witness_HighTimeOfOnePeriod :
    ([(0, false), (1024, true), (2048, true)] : List (U16 × Bool)).all (fun a =>
      let s := (driving 0 .up a.2).withPce { (driving 0 .up a.2).pce with cmpA := ⟨a.1, a.1, a.1⟩ }
      decide s.params.Valid && s.pce.pceOn && decide (s.pce.cnt = 0) && decide (s.pce.dir = .up) &&
        decide ((s.pce.cfgA.get .u).mode = .pwm) &&
          decide (s.pce.cmpA.get .u ≤ s.params.pwmTop)) = true := by decide

/-- The advancing and the gap arm. -/
theorem witness_SvcComAdvancesOrStagesTheGap :
    ([true, false].all fun idle =>
      let s := (started ref).withPce { (started ref).pce with comIrq := true, idle := idle }
      s.pce.comIrq && decide (s.pce.idle = idle)) = true := by decide

theorem witness_EveryPatternHasTwoSwitchingLegs : ref.Valid ∧ ref.roles = roleTable := by decide

/-- A blanked machine, and the one label that enables it again. -/
theorem witness_BreakLatchesUntilPwmInit :
    (base ref).pce.moe = false ∧
    ∃ t, runLabel (.cmd (encode .pwmInit)) (base ref) = .next t ∧ t.pce.moe = true := ⟨rfl, ⟨_, rfl, rfl⟩⟩

/-- The three ways the active configuration changes. -/
theorem witness_ActiveConfigurationChangesOnlyAtEvents :
    (∃ t, runLabel .pwmTick (driving 1 .down true) = .next t ∧ t.pce.cfgA ≠ (driving 1 .down true).pce.cfgA) ∧
    (∃ t, runLabel (.cmd (encode .pwmInit)) (driving 7 .up false) = .next t ∧
      t.pce.cfgA ≠ (driving 7 .up false).pce.cfgA) ∧
    (∃ t, runLabel .reset (driving 7 .up false) = .next t ∧ t.pce.cfgA ≠ (driving 7 .up false).pce.cfgA) :=
  ⟨⟨_, rfl, by decide⟩, ⟨_, rfl, by decide⟩, ⟨_, rfl, by decide⟩⟩

theorem witness_OnlyComAndFloatRequestEvents :
    (started ref).pce.comReq = false ∧
    (∃ t, runLabel (.cmd (encode .pwmCom)) (started ref) = .next t ∧ t.pce.comReq = true) ∧
    (∃ t, runLabel (.cmd (encode .pwmFloat)) (started ref) = .next t ∧ t.pce.comReq = true) :=
  ⟨rfl, ⟨_, rfl, rfl⟩, ⟨_, rfl, rfl⟩⟩

/-- An odd and an even number of events. -/
theorem witness_CommutationVisitsTheStepsInOrder :
    (base ref).params.Valid ∧ 0 < 1 ∧ 1 % 2 = 1 ∧ 0 < 12 ∧ 12 % 2 = 0 := by decide

/-- A machine right after PWM.INIT meets the invariants with zero duty; with `comIrq` its service is enabled. -/
theorem witness_ZeroDutyIsTheCentre :
    Inv ((started ref).withPce { (started ref).pce with comIrq := true }) ∧
    (∃ t, exec (.pwmDuty 0) ((started ref).withPce { (started ref).pce with comIrq := true }) = .next t) ∧
    ((started ref).withPce { (started ref).pce with comIrq := true }).pce.duty = 0 ∧
    ∃ t, runLabel .svcCom ((started ref).withPce { (started ref).pce with comIrq := true }) = .next t := by
  refine ⟨⟨ref_valid, ?_, ?_, ?_⟩, ⟨_, rfl⟩, rfl, ⟨_, rfl⟩⟩
  · exact {
      cmpS_current := by decide
      cmpA_le := forall_leg.2 (by decide)
      staged := .inl (.inl rfl)
      active := .inl (.inl rfl)
      advance_still := fun _ _ => .inl rfl
      comIrq_on := fun _ => rfl
      up_lt := fun _ => by decide
      down_pos := by intro h; cases h
      dtc_le := forall_leg.2 (by decide)
      off := by intro h; cases h }
  · exact ⟨(by intro h; cases h), fun _ => ⟨rfl, rfl, rfl, rfl, rfl⟩⟩
  · intro i; fin_cases i <;> exact fun _ => rfl

theorem witness_AdcInitRestartsTheLap : (0x200000A1000000A200000000 : Command).extractLsb' 88 8 = 0x20 := by decide

/-- Positions 0, 3 and 7. -/
theorem witness_DmaBeatWritesItsPair :
    ([0, 3, 7] : List (Fin 8)).all (fun w => (acquiring w).aap.acqOn && decide ((acquiring w).aap.wr = w)) = true := by
  decide

theorem witness_CompletedHalfIsStableForFourBeats :
    (acquiring 4).aap.acqOn = true ∧ (acquiring 4).aap.wr = 4 ∧ (acquiring 0).aap.acqOn = true ∧
    (acquiring 0).aap.wr = 0 ∧ ([(1, 2), (3, 4), (5, 6), (7, 8)] : List (U16 × U16)).length ≤ 4 := by decide

theorem witness_OneLapFillsTheBufferInOrder : (acquiring 0).aap.acqOn = true ∧ (acquiring 0).aap.wr = 0 := by decide

theorem witness_AdcServicesNotify :
    ((acquiring 4).withAap { (acquiring 4).aap with htIrq := true }).aap.htIrq = true ∧
    ((acquiring 0).withAap { (acquiring 0).aap with tcIrq := true }).aap.tcIrq = true := by decide

/-- Counting at 0 and at the saturated value. -/
theorem witness_DmaErrorsAreOnlyCounted :
    (acquiring 4).aap.acqOn = true ∧
    ([0, 0xFFFFFFFF] : List U32).all (fun n =>
      ((acquiring 4).withAap { (acquiring 4).aap with teIrq := true, errCnt := n }).aap.teIrq) = true := by decide

theorem witness_ErrorCounterNeverDecreases :
    Label.svcTe ≠ .reset ∧ ∃ t, runLabel .svcTe ((acquiring 4).withAap
      { (acquiring 4).aap with teIrq := true, errCnt := 0xFFFFFFFF }) = .next t := ⟨by decide, ⟨_, rfl⟩⟩

/-- The word; delta 3 and 4; a full table; slot 0 and slot 3 as the lowest free one. -/
theorem witness_HtsRegClaimsTheLowestFreeSlot :
    (0x300000B10000000400000000 : Command).extractLsb' 88 8 = 0x30 ∧ (3 : U16).toNat < 4 ∧ 4 ≤ (4 : U16).toNat ∧
    (∀ i, ((hts 0 (armed 1 1 1) (armed 2 2 2) (armed 3 3 3) (armed 4 4 4)).hts.slot i).cb ≠ none) ∧
    (((base ref).hts.slot 0).cb = none ∧ ∀ j < (0 : Fin 4), ((base ref).hts.slot j).cb ≠ none) ∧
    (((hts 0 (armed 1 1 1) (armed 2 2 2) (armed 3 3 3) hfree).hts.slot 3).cb = none ∧
      ∀ j < (3 : Fin 4), ((hts 0 (armed 1 1 1) (armed 2 2 2) (armed 3 3 3) hfree).hts.slot j).cb ≠ none) := by decide

/-- The word; slots 3 and 4. -/
theorem witness_HtsUnregFreesTheSlot :
    (0x310200000000000000000000 : Command).extractLsb' 88 8 = 0x31 ∧ (3 : U8).toNat = (3 : Fin 4).val ∧
    4 ≤ (4 : U8).toNat := by decide

theorem witness_HtsModWritesOnlyThePeriod :
    (0x320000000000000A00000000 : Command).extractLsb' 88 8 = 0x32 ∧ (3 : U8).toNat = (3 : Fin 4).val ∧
    4 ≤ (4 : U8).toNat := by decide

/-- A pending match with its callback, and one whose callback is gone. -/
theorem witness_SvcHtsStrobesAndReloads :
    ((hts 104 ⟨104, 4, some 7, true, true⟩ hfree hfree hfree).hts.slot 0).pend = true ∧
    ((hts 104 ⟨104, 4, some 7, true, true⟩ hfree hfree hfree).hts.slot 0).cb = some 7 ∧
    ((hts 104 ⟨104, 4, none, false, true⟩ hfree hfree hfree).hts.slot 0).pend = true ∧
    ((hts 104 ⟨104, 4, none, false, true⟩ hfree hfree hfree).hts.slot 0).cb = none := by decide

/-- A deadline one tick ahead, and one a whole lap ahead (the counter stands at it). -/
theorem witness_ChannelMatchesExactlyAtItsDeadline :
    ([(1, 0xFFFF, 0), (65536, 9, 9)] : List (Nat × U16 × U16)).all (fun a =>
      let s := hts a.2.1 (armed a.2.2 4 7) hfree hfree hfree
      (s.hts.slot 0).ie && !(s.hts.slot 0).pend && decide (1 ≤ a.1) && decide (a.1 ≤ 2 ^ 16) &&
        decide ((s.hts.hcnt.toNat + a.1) % 2 ^ 16 = (s.hts.slot 0).deadline.toNat)) = true := by decide

/-- The shortest period, serviced at once and as late as allowed. -/
theorem witness_HardwareTimerIsPeriodic :
    4 ≤ (4 : U16).toNat ∧ ((base ref).hts.slot 0).cb = none ∧
    (∀ j < (0 : Fin 4), ((base ref).hts.slot j).cb ≠ none) ∧ ∀ r ∈ [0, 3], r < (4 : U16).toNat := by decide

/-- The word; a full table; slot 0 and slot 4 as the lowest free one. -/
theorem witness_StlRegClaimsTheLowestFreeSlot :
    (0x400000C10000000A00000000 : Command).extractLsb' 88 8 = 0x40 ∧
    (∀ j, ((stl 0 ⟨some 0, 0, 0⟩ ⟨some 1, 0, 0⟩ ⟨some 2, 0, 0⟩ ⟨some 3, 0, 0⟩ ⟨some 4, 0, 0⟩).stl.slot j).cb ≠ none) ∧
    (((base ref).stl.slot 0).cb = none ∧ ∀ k < (0 : Fin 5), ((base ref).stl.slot k).cb ≠ none) ∧
    (((stl 0 ⟨some 0, 0, 0⟩ ⟨some 1, 0, 0⟩ ⟨some 2, 0, 0⟩ ⟨some 3, 0, 0⟩ sfree).stl.slot 4).cb = none ∧
      ∀ k < (4 : Fin 5),
        ((stl 0 ⟨some 0, 0, 0⟩ ⟨some 1, 0, 0⟩ ⟨some 2, 0, 0⟩ ⟨some 3, 0, 0⟩ sfree).stl.slot k).cb ≠ none) := by decide

/-- The word; slots 4 and 5. -/
theorem witness_StlUnregFreesTheSlot :
    (0x410400000000000000000000 : Command).extractLsb' 88 8 = 0x41 ∧ (4 : U8).toNat = (4 : Fin 5).val ∧
    5 ≤ (5 : U8).toNat := by decide

theorem witness_StlUpdWritesOnlyThePeriod :
    (0x42010000000000FA00000000 : Command).extractLsb' 88 8 = 0x42 ∧ (4 : U8).toNat = (4 : Fin 5).val ∧
    5 ≤ (5 : U8).toNat := by decide

theorem witness_StlTsReadsTheTick : (0x430000000000000000000000 : Command).extractLsb' 88 8 = 0x43 := by decide

/-- The word; elapsed 5 against thresholds 4 and 5 (R185's example). -/
theorem witness_StlElapsedIsStrictModulo :
    (0x44000000FFFFFFFE00000004 : Command).extractLsb' 88 8 = 0x44 ∧
    (4 : U32).toNat < (2 ^ 32 + (3 : U32).toNat - (0xFFFFFFFE : U32).toNat) % 2 ^ 32 ∧
    (2 ^ 32 + (3 : U32).toNat - (0xFFFFFFFE : U32).toNat) % 2 ^ 32 ≤ (5 : U32).toNat := by decide

/-- Both kinds of slot the clauses of SYS_TICK speak of. -/
theorem witness_SysTickFiresTheElapsedSlots :
    let s := stl 103 ⟨some 7, 100, 3⟩ ⟨some 7, 100, 4⟩ sfree sfree sfree
    ((s.stl.slot 0).cb ≠ none ∧ (s.stl.slot 0).period.toNat < (2 ^ 32 + 104 - (s.stl.slot 0).start.toNat) % 2 ^ 32) ∧
    (s.stl.slot 1).cb ≠ none ∧
    ¬ (s.stl.slot 1).period.toNat < (2 ^ 32 + 104 - (s.stl.slot 1).start.toNat) % 2 ^ 32 := by decide

/-- Period 0, the longest period that fires, and the one that never does; the tick about to wrap. -/
theorem witness_SoftTimerFiresEveryPeriodPlusOne :
    ([0, 0xFFFFFFFE, 0xFFFFFFFF] : List U32).all (fun p =>
      let s := stl 0xFFFFFFFE ⟨some 7, 0xFFFFFFFE, p⟩ sfree sfree sfree sfree
      decide ((s.stl.slot 0).cb = some 7) && decide ((s.stl.slot 0).start = s.stl.tick)) = true ∧
    (0xFFFFFFFE : U32).toNat + 1 < 2 ^ 32 ∧ (0xFFFFFFFF : U32).toNat + 1 = 2 ^ 32 := by decide

/-- A free slot in a tick, and in the registration that claims it. -/
theorem witness_FreeSoftTimerIsSilent :
    ((base ref).stl.slot 0).cb = none ∧ (∃ t, runLabel .sysTick (base ref) = .next t) ∧
    ∃ t, runLabel (.cmd (encode (.stlReg 7 3))) (base ref) = .next t ∧ (t.stl.slot 0).cb = some 7 :=
  ⟨rfl, ⟨_, rfl⟩, ⟨_, rfl, rfl⟩⟩

theorem witness_DiagnosticsAreReadByNoRule :
    ∃ t, runLabel .svcCom ((started ref).withPce { (started ref).pce with comIrq := true }) = .next t := ⟨_, rfl⟩

/-- Two states that differ in all the host cannot see and agree in the rest. -/
theorem witness_ResponsesRevealOnlySlotsAndTick :
    (∃ t, exec (.htsReg 7 4) (base ref) = .next t) ∧
    (∃ t, exec (.htsReg 7 4) ((driving 7 .up true).withHts ⟨99, #v[hfree, hfree, hfree, ⟨5, 5, none, true, true⟩]⟩) =
      .next t) ∧
    ((driving 7 .up true).withHts ⟨99, #v[hfree, hfree, hfree, ⟨5, 5, none, true, true⟩]⟩).trace = (base ref).trace ∧
    ((driving 7 .up true).withHts ⟨99, #v[hfree, hfree, hfree, ⟨5, 5, none, true, true⟩]⟩).stl = (base ref).stl ∧
    ∀ k, (((driving 7 .up true).withHts ⟨99, #v[hfree, hfree, hfree, ⟨5, 5, none, true, true⟩]⟩).hts.slot k).cb =
      ((base ref).hts.slot k).cb :=
  ⟨⟨_, rfl⟩, ⟨_, rfl⟩, by decide, by decide, by decide⟩

end Sys2Proof.Tests
end

/-! PROOFS. The family of 00_scope.md R6: how a step takes the head of the agenda, and why what stands behind it does
not matter. -/

namespace Sys2Proof.Machine

/-! ### The agenda as a field to replace -/

/-- Replace the labels still to come. -/
def State.withAgenda (a : List Label) (s : State) : State := { s with agenda := a }

/-- Replace the labels still to come in the state an outcome ends in, if it ends in one. -/
def withAgendaAfter (a : List Label) : Result → Result
  | .next t => .next (t.withAgenda a)
  | .fault r => .fault r
  | .refused r => .refused r

section

variable (a : List Label) (s : State)

@[simp] theorem State.withAgenda_params : (s.withAgenda a).params = s.params := rfl
@[simp] theorem State.withAgenda_pce : (s.withAgenda a).pce = s.pce := rfl
@[simp] theorem State.withAgenda_aap : (s.withAgenda a).aap = s.aap := rfl
@[simp] theorem State.withAgenda_hts : (s.withAgenda a).hts = s.hts := rfl
@[simp] theorem State.withAgenda_stl : (s.withAgenda a).stl = s.stl := rfl
@[simp] theorem State.withAgenda_agenda : (s.withAgenda a).agenda = a := rfl
@[simp] theorem State.withAgenda_trace : (s.withAgenda a).trace = s.trace := rfl
@[simp] theorem State.withAgenda_draws : (s.withAgenda a).draws = s.draws := rfl
@[simp] theorem State.withAgenda_choices : (s.withAgenda a).choices = s.choices := rfl

@[simp] theorem State.respond_withAgenda (w : U32) :
    (s.withAgenda a).respond w = (s.respond w).withAgenda a := rfl
@[simp] theorem State.emit_withAgenda (o : Output) : (s.withAgenda a).emit o = (s.emit o).withAgenda a := rfl
@[simp] theorem State.withPce_withAgenda (x : Pce) : (s.withAgenda a).withPce x = (s.withPce x).withAgenda a := rfl
@[simp] theorem State.withAap_withAgenda (y : Aap) : (s.withAgenda a).withAap y = (s.withAap y).withAgenda a := rfl
@[simp] theorem State.withHts_withAgenda (z : Hts) : (s.withAgenda a).withHts z = (s.withHts z).withAgenda a := rfl
@[simp] theorem State.withStl_withAgenda (k : Stl) : (s.withAgenda a).withStl k = (s.withStl k).withAgenda a := rfl

@[simp] theorem withAgendaAfter_next (t : State) : withAgendaAfter a (.next t) = .next (t.withAgenda a) := rfl

/-! ### No label reads or writes the agenda -/

@[simp] theorem State.mapHSlot_withAgenda (slot : U8) (f : HSlot → HSlot) :
    (s.withAgenda a).mapHSlot slot f = (s.mapHSlot slot f).withAgenda a := by
  unfold State.mapHSlot
  split <;> rfl

@[simp] theorem State.mapSSlot_withAgenda (slot : U8) (f : SSlot → SSlot) :
    (s.withAgenda a).mapSSlot slot f = (s.mapSSlot slot f).withAgenda a := by
  unfold State.mapSSlot
  split <;> rfl

@[simp] theorem State.notifyAdc_withAgenda (cb : Option Handle) (isFull : Bool) :
    (s.withAgenda a).notifyAdc cb isFull = (s.notifyAdc cb isFull).withAgenda a := by
  cases cb <;> rfl

@[simp] theorem State.notifyHts_withAgenda (i : Fin 4) (t : HSlot) :
    (s.withAgenda a).notifyHts i t = (s.notifyHts i t).withAgenda a := by
  unfold State.notifyHts
  split <;> rfl

/-- HTS.REG has three outcomes, and chooses among them by HTS alone (42_hw_timer_scheduler.md R160). -/
theorem execHtsReg_withAgenda (cb : Handle) (delta : U16) :
    execHtsReg cb delta (s.withAgenda a) = withAgendaAfter a (execHtsReg cb delta s) := by
  unfold execHtsReg
  split
  · rfl
  · rw [State.withAgenda_hts]
    cases s.hts.lowestFree <;> rfl

/-- STL.REG has two outcomes, and chooses among them by STL alone (43_soft_timer_ladder.md R180). -/
theorem execStlReg_withAgenda (cb : Handle) (period : U32) :
    execStlReg cb period (s.withAgenda a) = withAgendaAfter a (execStlReg cb period s) := by
  unfold execStlReg
  rw [State.withAgenda_stl]
  cases s.stl.lowestFree <;> rfl

/-- No command reads or writes the agenda. -/
theorem exec_withAgenda (i : Instr) : exec i (s.withAgenda a) = withAgendaAfter a (exec i s) := by
  cases i
  case htsReg cb delta => exact execHtsReg_withAgenda a s cb delta
  case stlReg cb period => exact execStlReg_withAgenda a s cb period
  case htsUnreg slot => simp [exec, execHtsUnreg]
  case htsMod slot delta => simp [exec, execHtsMod]
  case stlUnreg slot => simp [exec, execStlUnreg]
  case stlUpd slot period => simp [exec, execStlUpd]
  all_goals rfl

/-- No command word, legal or not, reads or writes the agenda. -/
theorem doCmd_withAgenda (c : Command) : doCmd c (s.withAgenda a) = withAgendaAfter a (doCmd c s) := by
  cases h : decode c with
  | ok i => rw [doCmd_ok h, doCmd_ok h, exec_withAgenda]
  | error e => rw [doCmd_error h, doCmd_error h]; rfl

/-- No effect of a label reads or writes the agenda. -/
theorem perform_withAgenda (l : Label) : perform l (s.withAgenda a) = withAgendaAfter a (perform l s) := by
  cases l
  case cmd c => exact doCmd_withAgenda a s c
  case svcHt => simp [perform, doSvcHt]
  case svcTc => simp [perform, doSvcTc]
  case svcHts i => simp [perform, doSvcHts]
  all_goals rfl

/-- No precondition reads the agenda (00_scope.md R6). -/
@[simp] theorem enabled_withAgenda (l : Label) : enabled l (s.withAgenda a) = enabled l s := by
  cases l <;> rfl

/-- A label does the same whatever the agenda holds, and leaves the agenda as it is (20_memory.md R66). -/
theorem runLabel_withAgenda (l : Label) : runLabel l (s.withAgenda a) = withAgendaAfter a (runLabel l s) := by
  unfold runLabel
  rw [enabled_withAgenda]
  split
  · exact perform_withAgenda a s l
  · rfl

end

/-! ### Steps that take the head of the agenda -/

/-- With a label at the head of the agenda, a step runs it in the state that has it taken off. -/
theorem step_of_agenda_cons {s : State} {l : Label} {rest : List Label} (h : s.agenda = l :: rest) :
    step s = runLabel l (s.withAgenda rest) := by
  unfold step
  rw [h]
  rfl

/-- A label ends in the fault exactly when it is not enabled: the counterpart of `runLabel_completes_iff`. -/
theorem runLabel_fault_iff (l : Label) (s : State) :
    runLabel l s = .fault .stepNotEnabled ↔ ¬ enabled l s = true := by
  by_cases he : enabled l s = true
  · obtain ⟨t, ht⟩ := (runLabel_completes_iff l s).2 he
    simp [ht, he]
  · simp [runLabel, he]

/-- The first of several steps of a machine, split off. -/
theorem run_succ_of_step {M : Host.Core} {s t : M.State} (h : M.step s = .next t) (k : Nat) :
    M.run (k + 1) s = M.run k t := by
  simp [Host.Core.run, h]

/-- A run of labels is the machine running them from the agenda, whatever stands behind them. -/
theorem core_run_withAgenda {ls : List Label} {s t : State} (h : runLabels ls s = .next t) (rest : List Label) :
    Host.Core.run core ls.length (s.withAgenda (ls ++ rest)) = .next (t.withAgenda rest) := by
  induction ls generalizing s with
  | nil => cases h; rfl
  | cons l ls ih =>
    obtain ⟨u, hu, h⟩ := runLabels_cons_inv h
    have hstep : core.step (s.withAgenda (l :: (ls ++ rest))) = .next (u.withAgenda (ls ++ rest)) :=
      calc step (s.withAgenda (l :: (ls ++ rest)))
        _ = runLabel l (s.withAgenda (ls ++ rest)) := step_of_agenda_cons rfl
        _ = .next (u.withAgenda (ls ++ rest)) := by rw [runLabel_withAgenda, hu, withAgendaAfter_next]
    exact (run_succ_of_step hstep ls.length).trans (ih h)

/-! ### The statements -/

/-- Settles O6: a command is always enabled, so the step at its head is `doCmd`, which on a legal word is `exec`. -/
theorem stepRunsTheDecodedCommand : Obligations.StepRunsTheDecodedCommand := by
  intro s c rest i hagenda hdecode
  rw [step_of_agenda_cons hagenda, runLabel_cmd, doCmd_ok hdecode]
  rfl

/-- Settles O7: the preconditions spelled out in the statement are `enabled`, label by label, and `runLabel` completes
on an enabled label and faults on any other. -/
theorem stepTakesExactlyTheEnabledLabels : Obligations.StepTakesExactlyTheEnabledLabels := by
  intro s l rest hagenda pre
  have hpre : enabled l (s.withAgenda rest) = true ↔ pre := by
    rw [enabled_withAgenda]
    cases l <;> simp [enabled, pre]
  rw [step_of_agenda_cons hagenda]
  exact ⟨(runLabel_completes_iff l _).trans hpre, (runLabel_fault_iff l _).trans (not_congr hpre)⟩

/-- Settles O8, by induction on the labels: each step takes one label off, and no label reads or writes the agenda. -/
theorem agendaIsTakenInOrder : Obligations.AgendaIsTakenInOrder :=
  fun _ rest _ _ h => core_run_withAgenda h rest

end Sys2Proof.Machine

/-! PROOFS. The family of 10_state.md: what a command and a label do to the four units said once, and from it the
ownership of the units, the invariants and their bounds, the unread diagnostics, and what a response can depend on. -/

namespace Sys2Proof.Machine

/-! ### Every command is an update of one unit and an answer -/

/-- HTS after a registration: unchanged when it is rejected (42_hw_timer_scheduler.md R160). -/
def Hts.register (cb : Handle) (delta : U16) (x : Hts) : Hts :=
  if delta < Config.htsMinDelta then x
  else
    match x.lowestFree with
    | none => x
    | some i => x.setSlot i (claimedHSlot x.hcnt cb delta)

/-- The response of HTS.REG (R160). -/
def Hts.regAnswer (delta : U16) (x : Hts) : U32 :=
  if delta < Config.htsMinDelta then respTooShort
  else
    match x.lowestFree with
    | none => respNoSlot
    | some i => respSlot i

/-- HTS after a function is applied to the slot an operand names, if it names one (R161, R162). -/
def Hts.mapNamed (slot : U8) (f : HSlot → HSlot) (x : Hts) : Hts :=
  match hSlotOf slot with
  | some i => x.setSlot i (f (x.slot i))
  | none => x

/-- STL after a registration: unchanged when no slot is free (43_soft_timer_ladder.md R180). -/
def Stl.register (cb : Handle) (period : U32) (x : Stl) : Stl :=
  match x.lowestFree with
  | none => x
  | some j => x.setSlot j ⟨some cb, x.tick, period⟩

/-- The response of STL.REG (R180). -/
def Stl.regAnswer (x : Stl) : U32 :=
  match x.lowestFree with
  | none => respNoSlot
  | some j => respSlot j

/-- STL after a function is applied to the slot an operand names, if it names one (R181, R182). -/
def Stl.mapNamed (slot : U8) (f : SSlot → SSlot) (x : Stl) : Stl :=
  match sSlotOf slot with
  | some j => x.setSlot j (f (x.slot j))
  | none => x

/-- What a command writes, before it responds. -/
def State.effect (s : State) : Instr → State
  | .pwmInit => s.withPce (s.pce.init s.params)
  | .pwmFloat => s.withPce { s.pce.stage cfgFloat with comReq := true }
  | .pwmLow => s.withPce (s.pce.stage cfgLowSide)
  | .pwmDuty value => s.withPce (Pce.applyDuty s.params { s.pce with duty := value })
  | .pwmCom => s.withPce { s.pce with comReq := true }
  | .adcInit half full => s.withAap { s.aap with
      halfCb := some half, fullCb := some full, wr := 0,
      htIrq := false, tcIrq := false, teIrq := false, acqOn := true }
  | .htsReg cb delta => s.withHts (s.hts.register cb delta)
  | .htsUnreg slot => s.withHts (s.hts.mapNamed slot fun t => { t with cb := none, ie := false })
  | .htsMod slot delta => s.withHts (s.hts.mapNamed slot fun t => { t with delta := delta })
  | .stlReg cb period => s.withStl (s.stl.register cb period)
  | .stlUnreg slot => s.withStl (s.stl.mapNamed slot fun t => { t with cb := none })
  | .stlUpd slot period => s.withStl (s.stl.mapNamed slot fun t => { t with period := period })
  | .stlTs => s
  | .stlElapsed _ _ => s

/-- What a command responds (30_encoding.md R86). -/
def State.answer (s : State) : Instr → U32
  | .htsReg _ delta => s.hts.regAnswer delta
  | .stlReg _ _ => s.stl.regAnswer
  | .stlTs => s.stl.tick
  | .stlElapsed ts thr => respBool (elapsedExceeds s.stl.tick ts thr)
  | .pwmInit | .pwmFloat | .pwmLow | .pwmDuty _ | .pwmCom | .adcInit _ _ | .htsUnreg _ | .htsMod _ _ | .stlUnreg _
  | .stlUpd _ _ => respOk

theorem State.mapHSlot_eq (slot : U8) (f : HSlot → HSlot) (s : State) :
    s.mapHSlot slot f = s.withHts (s.hts.mapNamed slot f) := by
  unfold State.mapHSlot Hts.mapNamed
  cases hSlotOf slot <;> rfl

theorem State.mapSSlot_eq (slot : U8) (f : SSlot → SSlot) (s : State) :
    s.mapSSlot slot f = s.withStl (s.stl.mapNamed slot f) := by
  unfold State.mapSSlot Stl.mapNamed
  cases sSlotOf slot <;> rfl

theorem execHtsReg_eq (cb : Handle) (delta : U16) (s : State) :
    execHtsReg cb delta s = .next ((s.withHts (s.hts.register cb delta)).respond (s.hts.regAnswer delta)) := by
  unfold execHtsReg Hts.register Hts.regAnswer
  split
  · rfl
  · cases s.hts.lowestFree <;> rfl

theorem execStlReg_eq (cb : Handle) (period : U32) (s : State) :
    execStlReg cb period s = .next ((s.withStl (s.stl.register cb period)).respond s.stl.regAnswer) := by
  unfold execStlReg Stl.register Stl.regAnswer
  cases s.stl.lowestFree <;> rfl

/-- All a command does: it writes its effect, then gives its answer. -/
theorem exec_eq (i : Instr) (s : State) : exec i s = .next ((s.effect i).respond (s.answer i)) := by
  cases i
  case htsReg cb delta => exact execHtsReg_eq cb delta s
  case stlReg cb period => exact execStlReg_eq cb period s
  case htsUnreg slot => simp only [exec, execHtsUnreg, State.mapHSlot_eq]; rfl
  case htsMod slot delta => simp only [exec, execHtsMod, State.mapHSlot_eq]; rfl
  case stlUnreg slot => simp only [exec, execStlUnreg, State.mapSSlot_eq]; rfl
  case stlUpd slot period => simp only [exec, execStlUpd, State.mapSSlot_eq]; rfl
  all_goals rfl

/-- The effect comes before the response: it emits nothing itself. -/
@[simp] theorem State.effect_trace (s : State) (i : Instr) : (s.effect i).trace = s.trace := by
  cases i <;> rfl

/-- All a command word does: a legal one has the effect of its command and gives its answer, an illegal one only
responds (30_encoding.md R84, R94). -/
theorem doCmd_cases {c : Command} {s t : State} (h : doCmd c s = .next t) :
    (∃ i, decode c = .ok i ∧ t = (s.effect i).respond (s.answer i)) ∨
      ((∃ e, decode c = .error e) ∧ t = s.respond respIllegal) := by
  cases hc : decode c with
  | ok i =>
    rw [doCmd_ok hc, exec_eq] at h
    exact .inl ⟨i, rfl, (next_eq_next_iff.1 h).symm⟩
  | error e =>
    rw [doCmd_error hc] at h
    exact .inr ⟨⟨e, rfl⟩, (next_eq_next_iff.1 h).symm⟩

/-! ### Lists of outputs -/

/-- Append several outputs to the trace, in order. -/
def State.emitAll (os : List Output) (s : State) : State := { s with trace := s.trace ++ os }

theorem State.notifyAdc_eq (cb : Option Handle) (isFull : Bool) (s : State) :
    s.notifyAdc cb isFull = s.emitAll (cb.toList.map fun h => .cbAdc h isFull s.aap.buf) := by
  cases cb with
  | none => simp [State.notifyAdc, State.emitAll]
  | some h => rfl

theorem State.notifyHts_eq (i : Fin 4) (t : HSlot) (s : State) :
    s.notifyHts i t = s.emitAll (t.cb.toList.map fun h => .cbHts h i t.deadline) := by
  unfold State.notifyHts
  cases t.cb with
  | none => simp [State.emitAll]
  | some h => rfl

/-! ### Labels that complete -/

/-- A label that completes was enabled, and its effect is the result. -/
theorem runLabel_eq_next_iff {l : Label} {s t : State} :
    runLabel l s = .next t ↔ enabled l s = true ∧ perform l s = .next t := by
  unfold runLabel
  split <;> simp_all

/-! ### Who writes what -/

/-- `t` is reached from `s` by writing at most the given unit and appending to the trace (10_state.md R43). -/
structure WritesOnly (u : Option CoreUnit) (s t : State) : Prop where
  pce : u ≠ some .pce → t.pce = s.pce
  aap : u ≠ some .aap → t.aap = s.aap
  hts : u ≠ some .hts → t.hts = s.hts
  stl : u ≠ some .stl → t.stl = s.stl
  params : t.params = s.params
  agenda : t.agenda = s.agenda
  trace : s.trace <+: t.trace

/-- A legal command word belongs to the unit of its command (R43). -/
theorem unitOf_cmd_of_ok {c : Command} {i : Instr} (h : decode c = .ok i) :
    unitOf (.cmd c) = some (unitOfInstr i) := by
  simp [unitOf, h]

namespace WritesOnly

variable {u : Option CoreUnit} {s t : State}

protected theorem refl (u : Option CoreUnit) (s : State) : WritesOnly u s s :=
  ⟨fun _ => rfl, fun _ => rfl, fun _ => rfl, fun _ => rfl, rfl, rfl, List.prefix_refl _⟩

theorem emitAll (h : WritesOnly u s t) (os : List Output) : WritesOnly u s (t.emitAll os) :=
  { h with trace := h.trace.trans (List.prefix_append _ _) }

theorem emit (h : WritesOnly u s t) (o : Output) : WritesOnly u s (t.emit o) := h.emitAll [o]

theorem respond (h : WritesOnly u s t) (w : U32) : WritesOnly u s (t.respond w) := h.emit _

theorem notifyAdc (h : WritesOnly u s t) (cb : Option Handle) (isFull : Bool) :
    WritesOnly u s (t.notifyAdc cb isFull) := by
  rw [State.notifyAdc_eq]
  exact h.emitAll _

theorem notifyHts (h : WritesOnly u s t) (i : Fin 4) (x : HSlot) : WritesOnly u s (t.notifyHts i x) := by
  rw [State.notifyHts_eq]
  exact h.emitAll _

theorem withPce (s : State) (x : Pce) : WritesOnly (some .pce) s (s.withPce x) :=
  { WritesOnly.refl (some .pce) s with pce := fun hu => absurd rfl hu }

theorem withAap (s : State) (x : Aap) : WritesOnly (some .aap) s (s.withAap x) :=
  { WritesOnly.refl (some .aap) s with aap := fun hu => absurd rfl hu }

theorem withHts (s : State) (x : Hts) : WritesOnly (some .hts) s (s.withHts x) :=
  { WritesOnly.refl (some .hts) s with hts := fun hu => absurd rfl hu }

theorem withStl (s : State) (x : Stl) : WritesOnly (some .stl) s (s.withStl x) :=
  { WritesOnly.refl (some .stl) s with stl := fun hu => absurd rfl hu }

/-- A command writes the unit of its opcode's high digit (30_encoding.md R81). -/
theorem effect (i : Instr) (s : State) : WritesOnly (some (unitOfInstr i)) s (s.effect i) := by
  cases i
  case pwmInit | pwmFloat | pwmLow | pwmDuty | pwmCom => exact withPce s _
  case adcInit => exact withAap s _
  case htsReg | htsUnreg | htsMod => exact withHts s _
  case stlReg | stlUnreg | stlUpd => exact withStl s _
  case stlTs | stlElapsed => exact WritesOnly.refl _ s

/-- A command word writes the unit of its command, and no unit when it is illegal. -/
theorem of_doCmd {c : Command} (h : doCmd c s = .next t) : WritesOnly (unitOf (.cmd c)) s t := by
  rcases doCmd_cases h with ⟨i, hc, rfl⟩ | ⟨⟨e, hc⟩, rfl⟩
  · rw [unitOf_cmd_of_ok hc]
    exact (effect i s).respond _
  · exact (WritesOnly.refl _ s).respond _

/-- A label other than RESET writes its own unit (R43). -/
theorem of_perform {l : Label} (hl : l ≠ .reset) (h : perform l s = .next t) : WritesOnly (unitOf l) s t := by
  cases l
  case cmd c => exact of_doCmd h
  all_goals obtain rfl := next_eq_next_iff.1 h
  case pwmTick | brk => exact withPce s _
  case svcCom => exact (withPce s _).emit _
  case dmaBeat | dmaErr => exact withAap s _
  case svcHt | svcTc => exact ((withAap s _).emit _).notifyAdc _ _
  case svcTe => exact (withAap s _).emit _
  case hcntTick => exact withHts s _
  case svcHts => exact (withHts s _).notifyHts _ _
  case sysTick => exact (withStl s _).emitAll _
  case reset => exact absurd rfl hl

end WritesOnly

/-- Settles O10: a label other than RESET writes its own unit only, and RESET keeps the model's own fields. -/
theorem eachUnitIsWrittenByItsOwnLabels : Obligations.EachUnitIsWrittenByItsOwnLabels := by
  intro l s t h
  obtain ⟨-, hp⟩ := runLabel_eq_next_iff.1 h
  by_cases hl : l = .reset
  · subst hl
    obtain rfl := next_eq_next_iff.1 hp
    exact ⟨fun hne => absurd rfl hne, rfl, rfl, List.prefix_refl _⟩
  · obtain ⟨hpce, haap, hhts, hstl, hparams, hagenda, htrace⟩ := WritesOnly.of_perform hl hp
    exact ⟨fun _ => ⟨hpce, haap, hhts, hstl⟩, hparams, hagenda, htrace⟩

/-! ### What a response depends on -/

/-- A command appends its answer and nothing else (30_encoding.md R86). -/
theorem exec_trace {i : Instr} {s t : State} (h : exec i s = .next t) :
    t.trace = s.trace ++ [.response (s.answer i)] := by
  obtain rfl := next_eq_next_iff.1 ((exec_eq i s).symm.trans h)
  simp

/-- Which slot a registration claims depends on the callbacks only (42_hw_timer_scheduler.md R160). -/
theorem Hts.lowestFree_congr {x y : Hts} (h : ∀ i, (y.slot i).cb = (x.slot i).cb) :
    y.lowestFree = x.lowestFree := by
  simp only [Hts.lowestFree, h]

/-- An answer depends on STL and on the hardware timer callbacks only (10_state.md R45). -/
theorem State.answer_congr {s s' : State} (hstl : s'.stl = s.stl)
    (hcb : ∀ i, (s'.hts.slot i).cb = (s.hts.slot i).cb) (i : Instr) : s'.answer i = s.answer i := by
  cases i
  case htsReg cb delta => simp only [State.answer, Hts.regAnswer, Hts.lowestFree_congr hcb]
  case stlReg | stlTs | stlElapsed => simp only [State.answer, hstl]
  all_goals rfl

/-- Settles O60: the appended answer is a function of STL and the hardware timer callbacks. -/
theorem responsesRevealOnlySlotsAndTick : Obligations.ResponsesRevealOnlySlotsAndTick := by
  intro i s s' t t' ht ht' htrace hstl hcb
  rw [exec_trace ht, exec_trace ht', htrace, State.answer_congr hstl hcb]

/-! ### The diagnostics -/

/-- Replace `running` (10_state.md R22). -/
def Pce.withRunning (b : Bool) (x : Pce) : Pce := { x with running := b }

/-- Replace the two diagnostics, `running` and `err_cnt` (R22, R35). -/
def State.withDiagnostics (b : Bool) (n : U32) (s : State) : State :=
  { s with pce := s.pce.withRunning b, aap := { s.aap with errCnt := n } }

theorem Pce.count_withRunning (p : Params) (b : Bool) (x : Pce) :
    (x.withRunning b).count p = (x.count p).withRunning b := by
  simp only [Pce.count, Pce.withRunning]
  cases x.dir <;> rfl

theorem Pce.update_withRunning (b : Bool) (x : Pce) : (x.withRunning b).update = x.update.withRunning b := by
  cases h : x.comReq with
  | true => rw [Pce.update_of_request x h, Pce.update_of_request (x.withRunning b) h]; rfl
  | false => rw [Pce.update_of_none x h, Pce.update_of_none (x.withRunning b) h]; rfl

/-- A tick carries `running` along (40_pwm_commutation.md R108). -/
theorem Pce.tick_withRunning (p : Params) (b : Bool) (x : Pce) :
    (x.withRunning b).tick p = (x.tick p).withRunning b := by
  have hboundary : (x.withRunning b).boundary = x.boundary := rfl
  rw [Pce.tick_eq, Pce.tick_eq, Pce.count_withRunning, Pce.update_withRunning, hboundary]
  cases x.boundary <;> rfl

/-- A command writes the same whatever the diagnostics are, and at most resets `running` (R103). -/
theorem effect_withDiagnostics (i : Instr) (s : State) (b : Bool) (n : U32) :
    ∃ b', (s.withDiagnostics b n).effect i = (s.effect i).withDiagnostics b' n := by
  cases i
  case pwmInit => exact ⟨false, rfl⟩
  all_goals exact ⟨b, rfl⟩

@[simp] theorem answer_withDiagnostics (i : Instr) (s : State) (b : Bool) (n : U32) :
    (s.withDiagnostics b n).answer i = s.answer i := by
  cases i <;> rfl

/-- No precondition reads the diagnostics (00_scope.md R6). -/
@[simp] theorem enabled_withDiagnostics (l : Label) (s : State) (b : Bool) (n : U32) :
    enabled l (s.withDiagnostics b n) = enabled l s := by
  cases l <;> rfl

/-- A command word does the same whatever the diagnostics are. -/
theorem doCmd_withDiagnostics {c : Command} {s t : State} (h : doCmd c s = .next t) (b : Bool) (n : U32) :
    ∃ b' n', doCmd c (s.withDiagnostics b n) = .next (t.withDiagnostics b' n') := by
  rcases doCmd_cases h with ⟨i, hc, rfl⟩ | ⟨⟨e, hc⟩, rfl⟩
  · obtain ⟨b', hb⟩ := effect_withDiagnostics i s b n
    refine ⟨b', n, ?_⟩
    rw [doCmd_ok hc, exec_eq, hb, answer_withDiagnostics]
    rfl
  · exact ⟨b, n, doCmd_error hc _⟩

/-- An enabled label does the same whatever the diagnostics are, but for the diagnostics themselves. -/
theorem perform_withDiagnostics {l : Label} {s t : State} (h : perform l s = .next t) (b : Bool) (n : U32) :
    ∃ b' n', perform l (s.withDiagnostics b n) = .next (t.withDiagnostics b' n') := by
  cases l
  case cmd c => exact doCmd_withDiagnostics h b n
  all_goals obtain rfl := next_eq_next_iff.1 h
  case pwmTick =>
    have htick := Pce.tick_withRunning s.params b s.pce
    exact ⟨b, n, congrArg (fun x => (.next ((s.withDiagnostics b n).withPce x) : Result)) htick⟩
  case svcCom => exact ⟨(doSvcCom s).pce.running, n, rfl⟩
  case svcHt => exact ⟨b, n, by simp only [perform, doSvcHt, State.notifyAdc_eq]; rfl⟩
  case svcTc => exact ⟨b, n, by simp only [perform, doSvcTc, State.notifyAdc_eq]; rfl⟩
  case svcTe => exact ⟨b, saturatingSucc n, rfl⟩
  case svcHts i => exact ⟨b, n, by simp only [perform, doSvcHts, State.notifyHts_eq]; rfl⟩
  case reset => exact ⟨false, 0, rfl⟩
  all_goals exact ⟨b, n, rfl⟩

/-- Settles O59: neither a precondition nor an effect reads the diagnostics. -/
theorem diagnosticsAreReadByNoRule : Obligations.DiagnosticsAreReadByNoRule := by
  intro l s t b n h
  obtain ⟨henabled, hp⟩ := runLabel_eq_next_iff.1 h
  obtain ⟨b', n', hd⟩ := perform_withDiagnostics hp b n
  exact ⟨b', n', runLabel_eq_next_iff.2 ⟨(enabled_withDiagnostics l s b n).trans henabled, hd⟩⟩

/-! ### RESET -/

/-- The buffer a RESET draws: sample k is the free value number n + k (10_state.md R44). -/
@[simp] theorem readSample_freshBuf (n : Nat) (k : Fin 16) :
    readSample (freshBuf n) k = Config.freeSample (n + k.val) := by
  fin_cases k <;> rfl

/-- With the main output off no gate is on (40_pwm_commutation.md R113). -/
theorem Pce.gates_off {x : Pce} (h : x.moe = false) (l : Leg) : x.hs l = false ∧ x.ls l = false := by
  simp [Pce.hs, Pce.ls, h]

/-- Settles O13: the reset state spells out R44's table. -/
theorem resetPutsTheResetValues : Obligations.ResetPutsTheResetValues := by
  intro s
  have hslot : ∀ i, (doReset s).hts.slot i = ⟨0, 0, none, false, false⟩ := by intro i; fin_cases i <;> rfl
  have sslot : ∀ j, (doReset s).stl.slot j = ⟨none, 0, 0⟩ := by intro j; fin_cases j <;> rfl
  exact ⟨doReset s, rfl, rfl, rfl, readSample_freshBuf s.draws, rfl, rfl, hslot, rfl, sslot,
    Pce.gates_off rfl, rfl, rfl, rfl, rfl⟩

/-! ### The invariants of PCE -/

theorem pwmTop_pos_of_valid {p : Params} (h : p.Valid) : 0 < p.pwmTop := by
  obtain ⟨htop, -⟩ := h
  bv_omega

theorem pwmCenter_le_of_valid {p : Params} (h : p.Valid) : p.pwmCenter ≤ p.pwmTop := by
  obtain ⟨-, hcenter, -⟩ := h
  exact hcenter

namespace Pce.Inv

variable {p : Params} {x : Pce}

/-- A counter at 0 that counts up, a floating bridge and centred compare values meet the invariants: the state RESET
and PWM.INIT leave (10_state.md R44, 40_pwm_commutation.md R103). -/
theorem of_rest (hp : p.Valid) (hcmpS : x.cmpS = compares p x.duty x.step) (hcmpA : x.cmpA = PerLeg.all p.pwmCenter)
    (hcfgS : x.cfgS = cfgFloat) (hcfgA : x.cfgA = cfgFloat) (hirq : x.comIrq = false) (hcnt : x.cnt = 0)
    (hdir : x.dir = .up) (hdtc : x.dtc = PerLeg.all 0) (hoff : x.pceOn = false → x.moe = false) : x.Inv p := by
  exact {
    cmpS_current := hcmpS
    cmpA_le := fun l => by simpa [hcmpA] using pwmCenter_le_of_valid hp
    staged := .inl (.inl hcfgS)
    active := .inl (.inl hcfgA)
    advance_still := by simp [hirq]
    comIrq_on := by simp [hirq]
    up_lt := fun _ => by rw [hcnt]; exact pwmTop_pos_of_valid hp
    down_pos := by simp [hdir]
    dtc_le := by simp [hdtc]
    off := fun h => ⟨hoff h, hcfgA⟩ }

theorem reset (hp : p.Valid) : (Pce.reset p).Inv p :=
  of_rest hp (compares_zero (pwmCenter_le_of_valid hp) 0).symm rfl rfl rfl rfl rfl rfl rfl fun _ => rfl

theorem init (hp : p.Valid) (x : Pce) : (x.init p).Inv p :=
  of_rest hp rfl rfl rfl rfl rfl rfl rfl rfl fun h => nomatch h

theorem stage_still (h : x.Inv p) {c : PerLeg LegCfg} (hc : isStill c) : (x.stage c).Inv p :=
  { h with staged := .inl hc }

theorem request (h : x.Inv p) : ({ x with comReq := true } : Pce).Inv p := { h with }

theorem duty (h : x.Inv p) (value : U16) : (Pce.applyDuty p { x with duty := value }).Inv p :=
  { h with cmpS_current := rfl }

theorem brk (h : x.Inv p) : ({ x with moe := false } : Pce).Inv p :=
  { h with off := fun hoff => ⟨rfl, (h.off hoff).2⟩ }

/-- Counting keeps the counter between 0 and PWM_TOP and turns at both ends (R108). -/
theorem count (hp : p.Valid) (h : x.Inv p) : (x.count p).Inv p := by
  have htop := pwmTop_pos_of_valid hp
  cases hdir : x.dir with
  | up =>
    have hlt := h.up_lt hdir
    by_cases hturn : x.cnt + 1 = p.pwmTop
    · rw [show x.count p = { x with cnt := x.cnt + 1, dir := .down } by simp only [Pce.count, hdir, if_pos hturn]]
      exact { h with up_lt := (nomatch ·), down_pos := fun _ => by dsimp only; bv_omega }
    · rw [show x.count p = { x with cnt := x.cnt + 1, dir := .up } by simp only [Pce.count, hdir, if_neg hturn]]
      exact { h with up_lt := fun _ => by dsimp only; bv_omega, down_pos := (nomatch ·) }
  | down =>
    obtain ⟨hpos, hle⟩ := h.down_pos hdir
    by_cases hturn : x.cnt - 1 = 0
    · rw [show x.count p = { x with cnt := x.cnt - 1, dir := .up } by simp only [Pce.count, hdir, if_pos hturn]]
      exact { h with up_lt := fun _ => by dsimp only; bv_omega, down_pos := (nomatch ·) }
    · rw [show x.count p = { x with cnt := x.cnt - 1, dir := .down } by simp only [Pce.count, hdir, if_neg hturn]]
      exact { h with up_lt := (nomatch ·), down_pos := fun _ => by dsimp only; bv_omega }

/-- The staged compare values are computed by saturation (R47 d). -/
theorem cmpS_le (hp : p.Valid) (h : x.Inv p) (l : Leg) : x.cmpS.get l ≤ p.pwmTop := by
  rw [h.cmpS_current]
  exact compares_le (pwmCenter_le_of_valid hp) x.duty x.step l

/-- An UPDATE activates only what the invariants say of the staged registers (R109, R125). -/
theorem update (hp : p.Valid) (h : x.Inv p) (hon : x.pceOn = true) : x.update.Inv p := by
  cases hr : x.comReq with
  | true =>
    rw [Pce.update_of_request x hr]
    exact { h with
      cmpA_le := h.cmpS_le hp
      active := h.staged.imp_right fun ⟨_, hcfg⟩ => ⟨hcfg, x.duty, h.cmpS_current⟩
      advance_still := fun _ (hidle : x.idle = true) => h.staged.resolve_right (by simp [hidle])
      comIrq_on := fun _ => hon
      off := fun (hoff : x.pceOn = false) => absurd hoff (by simp [hon]) }
  | false =>
    rw [Pce.update_of_none x hr]
    exact { h with
      cmpA_le := h.cmpS_le hp
      active := h.active.imp_right fun ⟨hcfg, _⟩ => ⟨hcfg, x.duty, h.cmpS_current⟩ }

/-- The dead-time count is loaded with DEAD_TIME or counted down (R112). -/
theorem deadTime (h : x.Inv p) : (Pce.deadTime p x).Inv p := by
  refine { h with dtc_le := fun l => ?_ }
  have hl := h.dtc_le l
  simp only [Pce.deadTime, PerLeg.get_ofFn]
  split <;> omega

/-- PWM_TICK, taken only when the counter runs (R108). -/
theorem tick (hp : p.Valid) (h : x.Inv p) (hon : x.pceOn = true) : (x.tick p).Inv p := by
  have hcount := h.count hp
  rw [Pce.tick_eq]
  split
  · refine (hcount.update hp ?_).deadTime
    rw [Pce.count_frame]
    exact hon
  · exact hcount.deadTime

/-- SVC_COM: an advance finds the bridge still, so the new step has no leg switching yet (R110, R125). -/
theorem service (h : x.Inv p) (hirq : x.comIrq = true) : (x.service p).Inv p := by
  cases hidle : x.idle with
  | true =>
    rw [Pce.service_of_idle p x hidle]
    exact { h with
      cmpS_current := rfl
      staged := .inr ⟨rfl, rfl⟩
      active := .inl (h.advance_still hirq hidle)
      advance_still := fun hirq' => nomatch hirq'
      comIrq_on := fun hirq' => nomatch hirq' }
  | false =>
    rw [Pce.service_of_active p x hidle]
    exact { h with
      cmpS_current := rfl
      staged := .inl (.inl rfl)
      advance_still := fun hirq' => nomatch hirq'
      comIrq_on := fun hirq' => nomatch hirq' }

end Pce.Inv

/-! ### The invariants of AAP and HTS -/

theorem Aap.inv_reset (buf : Vector U16 16) : (Aap.reset buf).Inv :=
  { on := (nomatch ·), off := fun _ => ⟨rfl, rfl, rfl, rfl, rfl⟩ }

/-- Once acquisition is on, only the presence of the two callbacks matters (41_adc_pipeline.md R143). -/
theorem Aap.inv_of_on {x : Aap} (hon : x.acqOn = true) (hhalf : x.halfCb.isSome = true)
    (hfull : x.fullCb.isSome = true) : x.Inv :=
  ⟨fun _ => ⟨hhalf, hfull⟩, fun hoff => absurd hoff (by simp [hon])⟩

/-- A pending notification implies that acquisition is on. -/
theorem Aap.Inv.acqOn_of_irq {x : Aap} (h : x.Inv) (hirq : x.htIrq = true ∨ x.tcIrq = true ∨ x.teIrq = true) :
    x.acqOn = true := by
  by_contra hoff
  obtain ⟨-, -, hht, htc, hte⟩ := h.off (by simpa using hoff)
  simp [hht, htc, hte] at hirq

theorem Hts.inv_reset : Hts.reset.Inv := by
  intro i _
  fin_cases i <;> rfl

/-- Writing a slot that is occupied or has its interrupt disabled keeps the invariant (10_state.md R47). -/
theorem Hts.Inv.setSlot {x : Hts} (h : x.Inv) (i : Fin 4) {t : HSlot} (ht : t.cb = none → t.ie = false) :
    (x.setSlot i t).Inv := by
  intro j
  rw [Hts.slot_setSlot]
  split
  · exact ht
  · exact h j

theorem Hts.Inv.register {x : Hts} (h : x.Inv) (cb : Handle) (delta : U16) : (x.register cb delta).Inv := by
  unfold Hts.register
  split
  · exact h
  · cases x.lowestFree with
    | none => exact h
    | some i => exact h.setSlot i fun hcb => nomatch hcb

theorem Hts.Inv.mapNamed {x : Hts} (h : x.Inv) (slot : U8) {f : HSlot → HSlot}
    (hf : ∀ i, (f (x.slot i)).cb = none → (f (x.slot i)).ie = false) : (x.mapNamed slot f).Inv := by
  unfold Hts.mapNamed
  cases hSlotOf slot with
  | none => exact h
  | some i => exact h.setSlot i (hf i)

theorem Hts.Inv.count {x : Hts} (h : x.Inv) : x.count.Inv := by
  intro i
  rw [Hts.count_slot]
  exact h i

/-- A service disables the interrupt of a slot whose callback is gone (42_hw_timer_scheduler.md R164). -/
theorem HSlot.serviced_ie_of_free {t : HSlot} (h : t.serviced.cb = none) : t.serviced.ie = false := by
  have hcb : t.cb = none := h
  simp [HSlot.serviced, hcb]

/-! ### The invariants of the machine -/

namespace Inv

variable {s t : State}

theorem withPce (h : Inv s) {x : Pce} (hx : x.Inv s.params) : Inv (s.withPce x) := { h with pce := hx }
theorem withAap (h : Inv s) {x : Aap} (hx : x.Inv) : Inv (s.withAap x) := { h with aap := hx }
theorem withHts (h : Inv s) {x : Hts} (hx : x.Inv) : Inv (s.withHts x) := { h with hts := hx }
theorem withStl (h : Inv s) (x : Stl) : Inv (s.withStl x) := { h with }
theorem withAgenda (h : Inv s) (a : List Label) : Inv (s.withAgenda a) := { h with }
theorem emitAll (h : Inv s) (os : List Output) : Inv (s.emitAll os) := { h with }
theorem emit (h : Inv s) (o : Output) : Inv (s.emit o) := h.emitAll [o]
theorem respond (h : Inv s) (w : U32) : Inv (s.respond w) := h.emit _

theorem notifyAdc (h : Inv s) (cb : Option Handle) (isFull : Bool) : Inv (s.notifyAdc cb isFull) := by
  rw [State.notifyAdc_eq]
  exact h.emitAll _

theorem notifyHts (h : Inv s) (i : Fin 4) (x : HSlot) : Inv (s.notifyHts i x) := by
  rw [State.notifyHts_eq]
  exact h.emitAll _

/-- Once acquisition is on, AAP may change in any way that keeps it on with its callbacks. -/
theorem withAap_of_on (h : Inv s) (hon : s.aap.acqOn = true) {x : Aap} (hx : x.acqOn = s.aap.acqOn)
    (hhalf : x.halfCb = s.aap.halfCb) (hfull : x.fullCb = s.aap.fullCb) : Inv (s.withAap x) := by
  obtain ⟨hhalf', hfull'⟩ := h.aap.on hon
  exact h.withAap (Aap.inv_of_on (hx.trans hon) (hhalf ▸ hhalf') (hfull ▸ hfull'))

theorem resetWith {p : Params} (hp : p.Valid) (buf : Vector U16 16) : Inv (State.resetWith p buf) :=
  ⟨hp, Pce.Inv.reset hp, Aap.inv_reset buf, Hts.inv_reset⟩

/-- No command breaks the invariants. -/
theorem effect (h : Inv s) (i : Instr) : Inv (s.effect i) := by
  cases i
  case pwmInit => exact h.withPce (.init h.params s.pce)
  case pwmFloat => exact h.withPce (h.pce.stage_still (.inl rfl)).request
  case pwmLow => exact h.withPce (h.pce.stage_still (.inr rfl))
  case pwmDuty value => exact h.withPce (h.pce.duty value)
  case pwmCom => exact h.withPce h.pce.request
  case adcInit half full => exact h.withAap (Aap.inv_of_on rfl rfl rfl)
  case htsReg cb delta => exact h.withHts (h.hts.register cb delta)
  case htsUnreg slot => exact h.withHts (h.hts.mapNamed slot fun _ _ => rfl)
  case htsMod slot delta => exact h.withHts (h.hts.mapNamed slot h.hts)
  case stlReg | stlUnreg | stlUpd => exact h.withStl _
  case stlTs | stlElapsed => exact h

theorem of_doCmd (h : Inv s) {c : Command} (ht : doCmd c s = .next t) : Inv t := by
  rcases doCmd_cases ht with ⟨i, -, rfl⟩ | ⟨-, rfl⟩
  · exact (h.effect i).respond _
  · exact h.respond _

/-- No enabled label breaks the invariants. -/
theorem of_perform (h : Inv s) {l : Label} (henabled : enabled l s = true) (ht : perform l s = .next t) : Inv t := by
  cases l
  case cmd c => exact h.of_doCmd ht
  all_goals obtain rfl := next_eq_next_iff.1 ht
  case pwmTick => exact h.withPce (h.pce.tick h.params henabled)
  case brk => exact h.withPce h.pce.brk
  case svcCom => exact (h.withPce (h.pce.service henabled)).emit _
  case dmaBeat | dmaErr => exact h.withAap_of_on henabled rfl rfl rfl
  case svcHt =>
    have hon := h.aap.acqOn_of_irq (.inl henabled)
    refine ((h.withAap_of_on hon ?_ ?_ ?_).emit _).notifyAdc _ _ <;> rfl
  case svcTc =>
    have hon := h.aap.acqOn_of_irq (.inr (.inl henabled))
    refine ((h.withAap_of_on hon ?_ ?_ ?_).emit _).notifyAdc _ _ <;> rfl
  case svcTe =>
    have hon := h.aap.acqOn_of_irq (.inr (.inr henabled))
    refine (h.withAap_of_on hon ?_ ?_ ?_).emit _ <;> rfl
  case hcntTick => exact h.withHts h.hts.count
  case svcHts i => exact (h.withHts (h.hts.setSlot i HSlot.serviced_ie_of_free)).notifyHts _ _
  case sysTick => exact (h.withStl _).emitAll _
  case reset => exact { resetWith h.params (freshBuf s.draws) with }

theorem of_runLabel (h : Inv s) {l : Label} (ht : runLabel l s = .next t) : Inv t :=
  have ⟨henabled, hp⟩ := runLabel_eq_next_iff.1 ht
  h.of_perform henabled hp

theorem of_idleStep (h : Inv s) (ht : idleStep s = .next t) : Inv t := by
  rcases idleStep_cases s with ⟨-, he⟩ | ⟨l, -, he⟩
  · obtain rfl := next_eq_next_iff.1 (he.symm.trans ht)
    exact h
  · have hs : Inv { s with choices := s.choices + 1 } := { h with }
    exact hs.of_runLabel (he.symm.trans ht)

theorem of_step (h : Inv s) (ht : step s = .next t) : Inv t := by
  cases ha : s.agenda with
  | nil =>
    refine h.of_idleStep ?_
    simpa only [step, ha] using ht
  | cons l rest =>
    rw [step_of_agenda_cons ha] at ht
    exact (h.withAgenda rest).of_runLabel ht

end Inv

/-- Settles O15: each unit's rules keep its invariants, and a label writes one unit. -/
theorem everyStepKeepsTheInvariants : Obligations.EveryStepKeepsTheInvariants :=
  fun _ _ h ht => h.of_step ht

/-- The free parameters are clamped into R8's ranges, and R101's and R141's tables meet their constraints. -/
theorem platform_valid : platform.Valid := by
  have htop : platformTop ≠ 0 := by
    unfold platformTop
    split
    · decide
    · assumption
  have hcenter : platformCenter ≤ platformTop := by
    unfold platformCenter
    split
    · assumption
    · exact BitVec.le_refl _
  have hroles : ∀ s : Fin 6, (roleTable.get s).hi ≠ (roleTable.get s).lo ∧
      (roleTable.get s).hi ≠ (roleTable.get s).off ∧ (roleTable.get s).lo ≠ (roleTable.get s).off := by decide
  exact ⟨htop, hcenter, hroles, adcSlotTable_valid⟩

/-- Settles O14: this machine's parameters are valid, and the reset state of valid parameters meets the invariants. -/
theorem invariantsHoldAtReset : Obligations.InvariantsHoldAtReset := Inv.resetWith platform_valid _

/-! ### What the invariants say of the registers -/

/-- A bridge configuration the core can stage or activate: FLOAT, LOWSIDE or a step's pattern (10_state.md R47 c). -/
def isBridge (p : Params) (c : PerLeg LegCfg) : Prop := isStill c ∨ ∃ k, c = pattern p k

theorem Pce.Inv.cfgS_isBridge {p : Params} {x : Pce} (h : x.Inv p) : isBridge p x.cfgS :=
  h.staged.imp_right fun ⟨_, hcfg⟩ => ⟨_, hcfg⟩

theorem Pce.Inv.cfgA_isBridge {p : Params} {x : Pce} (h : x.Inv p) : isBridge p x.cfgA :=
  h.active.imp_right fun ⟨hcfg, _⟩ => ⟨_, hcfg⟩

/-- R47 b: only FORCED_LOW and PWM occur. -/
theorem isBridge.mode_mem {p : Params} {c : PerLeg LegCfg} (h : isBridge p c) (l : Leg) :
    (c.get l).mode ∈ [Mode.forcedLow, Mode.pwm] := by
  rcases h with hstill | ⟨k, rfl⟩
  · simp [still_not_pwm hstill l]
  · rw [pattern_get]
    split <;> simp [legPwm, legOff]

/-- With R101's table the six patterns have three codes (30_encoding.md R93). -/
theorem bridgeCode_pattern_mem {p : Params} (hp : p.roles = roleTable) (k : Fin 6) :
    bridgeCode (pattern p k) ∈ ([0x2BB, 0xB2B, 0xBB2] : List (BitVec 12)) := by
  simp only [pattern, roleOf, hp]
  revert k
  decide

/-- R93: with R101's table a bridge configuration has one of five codes. -/
theorem isBridge.code_mem {p : Params} {c : PerLeg LegCfg} (h : isBridge p c) (hp : p.roles = roleTable) :
    bridgeCode c ∈ ([0x222, 0x333, 0x2BB, 0xB2B, 0xBB2] : List (BitVec 12)) := by
  rcases h with (rfl | rfl) | ⟨k, rfl⟩
  · decide
  · decide
  · exact List.mem_cons_of_mem _ (List.mem_cons_of_mem _ (bridgeCode_pattern_mem hp k))

/-- R47 e: in both directions the counter is at most PWM_TOP. -/
theorem Pce.Inv.cnt_le {p : Params} {x : Pce} (h : x.Inv p) : x.cnt ≤ p.pwmTop := by
  cases hdir : x.dir with
  | up => exact BitVec.le_of_lt (h.up_lt hdir)
  | down => exact (h.down_pos hdir).2

/-- Settles O16: each bound is a clause of the invariants or follows from one. -/
theorem invariantsBoundTheRegisters : Obligations.InvariantsBoundTheRegisters := by
  rintro s ⟨hp, hpce, haap, hhts⟩
  have hhalf (hirq : s.aap.htIrq = true) : s.aap.halfCb.isSome = true :=
    (haap.on (haap.acqOn_of_irq (.inl hirq))).1
  have hfull (hirq : s.aap.tcIrq = true) : s.aap.fullCb.isSome = true :=
    (haap.on (haap.acqOn_of_irq (.inr (.inl hirq)))).2
  exact ⟨fun l => ⟨hpce.cfgS_isBridge.mode_mem l, hpce.cfgA_isBridge.mode_mem l⟩,
    fun hr => ⟨hpce.cfgS_isBridge.code_mem hr, hpce.cfgA_isBridge.code_mem hr⟩,
    fun l => ⟨hpce.cmpS_le hp l, hpce.cmpA_le l, hpce.dtc_le l⟩,
    hpce.cnt_le, hhts, hpce.comIrq_on, hhalf, hfull⟩

end Sys2Proof.Machine

/-! PROOFS. The family of 20_memory.md: which samples a run of DMA beats can change. -/

namespace Sys2Proof.Machine

/-! ### One beat -/

@[simp] theorem doDmaBeat_acqOn (a1 a2 : U16) (s : State) : (doDmaBeat a1 a2 s).aap.acqOn = s.aap.acqOn := rfl

/-- The position advances modulo 8 (41_adc_pipeline.md R142). -/
theorem doDmaBeat_wr_val (a1 a2 : U16) (s : State) : (doDmaBeat a1 a2 s).aap.wr.val = (s.aap.wr.val + 1) % 8 := rfl

/-- A beat keeps every sample that does not belong to the pair at its position (41_adc_pipeline.md R142). -/
theorem readSample_doDmaBeat_of_ne (a1 a2 : U16) {s : State} {k : Fin 16} (hk : k.val / 2 ≠ s.aap.wr.val) :
    readSample (doDmaBeat a1 a2 s).aap.buf k = readSample s.aap.buf k := by
  have hbuf : (doDmaBeat a1 a2 s).aap.buf = writeBeat s.aap.buf s.aap.wr a1 a2 := rfl
  rw [hbuf, readSample_writeBeat, if_neg (by omega), if_neg (by omega)]

/-! ### A run of beats -/

/-- While acquisition is on, any number of beats completes, and keeps every sample whose pair stands at a position the
run does not reach. -/
theorem runLabels_dmaBeats_frame (pairs : List (U16 × U16)) {s : State} (hon : s.aap.acqOn = true) :
    ∃ t, runLabels (pairs.map fun a => .dmaBeat a.1 a.2) s = .next t ∧
      ∀ k : Fin 16, (∀ j < pairs.length, k.val / 2 ≠ (s.aap.wr.val + j) % 8) →
        readSample t.aap.buf k = readSample s.aap.buf k := by
  induction pairs generalizing s with
  | nil => exact ⟨s, rfl, fun _ _ => rfl⟩
  | cons a pairs ih =>
    have hbeat : runLabel (.dmaBeat a.1 a.2) s = .next (doDmaBeat a.1 a.2 s) := by simp [hon]
    obtain ⟨t, hrun, hkeep⟩ := ih ((doDmaBeat_acqOn a.1 a.2 s).trans hon)
    refine ⟨t, (runLabels_cons_next hbeat _).trans hrun, fun k hk => ?_⟩
    have hfirst : k.val / 2 ≠ s.aap.wr.val := by
      have h := hk 0 (Nat.succ_pos _)
      omega
    have hrest : ∀ j < pairs.length, k.val / 2 ≠ ((doDmaBeat a.1 a.2 s).aap.wr.val + j) % 8 := by
      intro j hj
      have h := hk (j + 1) (Nat.succ_lt_succ hj)
      rw [doDmaBeat_wr_val]
      omega
    rw [hkeep k hrest, readSample_doDmaBeat_of_ne _ _ hfirst]

/-- Settles O39: four beats from 4 reach the positions 4 to 7 only, and four beats from 0 the positions 0 to 3. -/
theorem completedHalfIsStableForFourBeats : Obligations.CompletedHalfIsStableForFourBeats := by
  intro s pairs hon hlen
  obtain ⟨t, hrun, hkeep⟩ := runLabels_dmaBeats_frame pairs hon
  refine ⟨t, hrun, fun hwr k hk => hkeep k fun j hj => ?_, fun hwr k hk => hkeep k fun j hj => ?_⟩
  · have hval : s.aap.wr.val = 4 := congrArg Fin.val hwr
    omega
  · have hval : s.aap.wr.val = 0 := congrArg Fin.val hwr
    omega

end Sys2Proof.Machine

/-! PROOFS. The family of 30_encoding.md: the decoder read as "the opcode chooses the command, the named fields fill in
its operands", and what follows for encodings, ignored bits, illegal words and responses. -/

namespace Sys2Proof

/-! ### The decoder, by opcode -/

/-- A command with its operands replaced by those R82 assembles from the fields of a command word. -/
def Instr.operandsFrom (f : Fields) : Instr → Instr
  | .pwmInit => .pwmInit
  | .pwmFloat => .pwmFloat
  | .pwmLow => .pwmLow
  | .pwmDuty _ => .pwmDuty f.arg0Low
  | .pwmCom => .pwmCom
  | .adcInit _ _ => .adcInit f.cb f.arg0Low
  | .htsReg _ _ => .htsReg f.cb f.arg0Low
  | .htsUnreg _ => .htsUnreg f.slot
  | .htsMod _ _ => .htsMod f.slot f.arg0Low
  | .stlReg _ _ => .stlReg f.cb f.arg0
  | .stlUnreg _ => .stlUnreg f.slot
  | .stlUpd _ _ => .stlUpd f.slot f.arg0
  | .stlTs => .stlTs
  | .stlElapsed _ _ => .stlElapsed f.arg0 f.arg1

/-- The opcode chooses the command, and the fields give its operands (30_encoding.md R94). -/
theorem decodeFields_of_opcode {f : Fields} {i : Instr} (h : f.op = i.opcode) :
    decodeFields f = .ok (i.operandsFrom f) := by
  unfold decodeFields
  rw [h]
  cases i <;> rfl

/-- Fields decode to a command exactly when they carry its opcode and its operands. -/
theorem decodeFields_eq_ok_iff {f : Fields} {i : Instr} :
    decodeFields f = .ok i ↔ f.op = i.opcode ∧ i.operandsFrom f = i := by
  constructor
  · intro h
    have hop := decodeFields_opcode h
    exact ⟨hop, Except.ok.inj ((decodeFields_of_opcode hop).symm.trans h)⟩
  · rintro ⟨hop, hi⟩
    rw [decodeFields_of_opcode hop, hi]

/-! ### Decoding an encoding -/

/-- The canonical fields hold every operand whole (R89). -/
theorem operandsFrom_fields (i : Instr) : i.operandsFrom i.fields = i := by
  cases i
  case pwmDuty value => exact congrArg Instr.pwmDuty (extract_zeroExtend value)
  case adcInit half full => exact congrArg (Instr.adcInit half) (extract_zeroExtend full)
  case htsReg cb delta => exact congrArg (Instr.htsReg cb) (extract_zeroExtend delta)
  case htsMod slot delta => exact congrArg (Instr.htsMod slot) (extract_zeroExtend delta)
  all_goals rfl

theorem decode_encode (i : Instr) : decode (encode i) = .ok i := by
  rw [decode, encode, fieldsOf_pack]
  exact decodeFields_eq_ok_iff.2 ⟨fields_op i, operandsFrom_fields i⟩

/-- Settles O1: the canonical fields carry the opcode of the command and every operand. -/
theorem decodeOfEncodeIsTheCommand : Obligations.DecodeOfEncodeIsTheCommand := decode_encode

/-! ### The named bits, field by field -/

/-- The parts of each field that R82 names for a command. -/
def Instr.namedFields : Instr → Fields
  | .pwmInit | .pwmFloat | .pwmLow | .pwmCom | .stlTs => ⟨255#8, 0, 0, 0, 0⟩
  | .pwmDuty _ => ⟨255#8, 0, 0, 65535#32, 0⟩
  | .adcInit _ _ | .htsReg _ _ => ⟨255#8, 0, 65535#16, 65535#32, 0⟩
  | .htsUnreg _ | .stlUnreg _ => ⟨255#8, 255#8, 0, 0, 0⟩
  | .htsMod _ _ => ⟨255#8, 255#8, 0, 65535#32, 0⟩
  | .stlReg _ _ => ⟨255#8, 0, 65535#16, 4294967295#32, 0⟩
  | .stlUpd _ _ => ⟨255#8, 255#8, 0, 4294967295#32, 0⟩
  | .stlElapsed _ _ => ⟨255#8, 0, 0, 4294967295#32, 4294967295#32⟩

/-- Fields masked one by one. -/
def Fields.mask (f m : Fields) : Fields :=
  ⟨f.op &&& m.op, f.slot &&& m.slot, f.cb &&& m.cb, f.arg0 &&& m.arg0, f.arg1 &&& m.arg1⟩

theorem fieldsOf_namedBits (i : Instr) : fieldsOf i.namedBits = i.namedFields := by
  cases i <;> (simp only [Instr.namedBits, Instr.namedFields]; decide)

/-- Clearing the bits R82 does not name masks each field by the parts R82 names of it. -/
theorem fieldsOf_and_namedBits (c : Command) (i : Instr) :
    fieldsOf (c &&& i.namedBits) = (fieldsOf c).mask i.namedFields := by
  rw [fieldsOf_and, fieldsOf_namedBits]
  rfl

/-- R82 names the whole opcode of every command. -/
theorem mask_namedFields_op (f : Fields) (i : Instr) : (f.mask i.namedFields).op = f.op := by
  cases i <;> exact and_ones8 f.op

/-- The mask of the low half of `arg0` keeps that half. -/
theorem extract_and_lowHalf (a : U32) : (a &&& 65535#32).extractLsb' 0 16 = a.extractLsb' 0 16 :=
  (congrArg _ (and_lowHalf a)).trans (extract_zeroExtend _)

/-- R82 names every bit an operand is read from. -/
theorem operandsFrom_mask (f : Fields) (i : Instr) : i.operandsFrom (f.mask i.namedFields) = i.operandsFrom f := by
  cases i <;> simp [Instr.operandsFrom, Instr.namedFields, Fields.mask, Fields.arg0Low, extract_and_lowHalf]

/-- R82 names no bit beyond the opcode and the operands: what the operands do not hold, the mask clears. -/
theorem fields_operandsFrom {f : Fields} {i : Instr} (h : f.op = i.opcode) :
    (i.operandsFrom f).fields = f.mask i.namedFields := by
  cases i <;>
    simp [Instr.operandsFrom, Instr.fields, Instr.opcode, Instr.namedFields, Fields.mask, Fields.arg0Low,
      ← and_lowHalf, h]

/-- Settles O2: the canonical fields of the decoded command are the word's fields masked by the named parts. -/
theorem encodeOfDecodeKeepsTheNamedBits : Obligations.EncodeOfDecodeKeepsTheNamedBits := by
  intro c i h
  obtain ⟨hop, hi⟩ := decodeFields_eq_ok_iff.1 h
  apply command_eq_of_fieldsOf
  calc fieldsOf (encode i)
    _ = i.fields := fieldsOf_pack i.fields
    _ = (i.operandsFrom (fieldsOf c)).fields := by rw [hi]
    _ = (fieldsOf c).mask i.namedFields := fields_operandsFrom hop
    _ = fieldsOf (c &&& i.namedBits) := (fieldsOf_and_namedBits c i).symm

/-- Whether a word decodes to a command depends on the bits R82 names for that command only (R85). -/
theorem decode_and_namedBits_eq_ok_iff (c : Command) (i : Instr) :
    decode (c &&& i.namedBits) = .ok i ↔ decode c = .ok i := by
  rw [decode, decode, decodeFields_eq_ok_iff, decodeFields_eq_ok_iff, fieldsOf_and_namedBits, mask_namedFields_op,
    operandsFrom_mask]

/-- Settles O3: words that agree on the named bits decode alike, and a canonical encoding decodes to its command, so
O2 says that it is its own named part. -/
theorem ignoredBitsDoNotMatter : Obligations.IgnoredBitsDoNotMatter := by
  refine ⟨fun c c' i s h hagree => ?_, fun i => (encodeOfDecodeKeepsTheNamedBits _ i (decode_encode i)).symm⟩
  have h' : decode c' = .ok i := by
    rw [← decode_and_namedBits_eq_ok_iff, hagree, decode_and_namedBits_eq_ok_iff]
    exact h
  rw [Machine.runLabel_cmd, Machine.runLabel_cmd, Machine.doCmd_ok h, Machine.doCmd_ok h']

/-! ### Illegal words -/

/-- One command per opcode, with zero operands, in the order of R83. -/
def Instr.onePerOpcode : List Instr :=
  [.pwmInit, .pwmFloat, .pwmLow, .pwmDuty 0, .pwmCom, .adcInit 0 0, .htsReg 0 0, .htsUnreg 0, .htsMod 0 0, .stlReg 0 0,
    .stlUnreg 0, .stlUpd 0 0, .stlTs, .stlElapsed 0 0]

theorem opcode_mem_onePerOpcode (i : Instr) : i.opcode ∈ Instr.onePerOpcode.map Instr.opcode := by
  cases i <;> simp [Instr.onePerOpcode, Instr.opcode]

/-- A word is illegal exactly when its opcode is none of the fourteen (R84). -/
theorem decode_error_iff (c : Command) :
    (∃ e, decode c = .error e) ↔ (fieldsOf c).op ∉ Instr.onePerOpcode.map Instr.opcode := by
  constructor
  · rintro ⟨e, he⟩ hmem
    obtain ⟨i, -, hi⟩ := List.mem_map.1 hmem
    exact nomatch he.symm.trans (decodeFields_of_opcode hi.symm)
  · intro hmem
    cases h : decode c with
    | error e => exact ⟨e, rfl⟩
    | ok i => exact absurd (decodeFields_opcode h ▸ opcode_mem_onePerOpcode i) hmem

/-- Settles O4: the list in the statement is, by evaluation, the opcodes of `onePerOpcode`, and an illegal word only
responds. -/
theorem illegalCommandsOnlyRespond : Obligations.IllegalCommandsOnlyRespond :=
  fun c => ⟨decode_error_iff c, fun ⟨_, he⟩ s => Machine.doCmd_error he s⟩

/-! ### Responses -/

/-- Settles O9: a command word always completes, and a legal one and an illegal one each append one response. -/
theorem everyCommandRespondsOnce : Obligations.EveryCommandRespondsOnce := by
  intro c s
  obtain ⟨t, ht⟩ := Machine.perform_completes (.cmd c) s
  have hframe := Machine.WritesOnly.of_doCmd ht
  obtain ⟨w, hw⟩ : ∃ w, t.trace = s.trace ++ [.response w] := by
    rcases Machine.doCmd_cases ht with ⟨i, -, rfl⟩ | ⟨-, rfl⟩
    · exact ⟨s.answer i, by rw [Machine.State.respond_trace, Machine.State.effect_trace]⟩
    · exact ⟨Machine.respIllegal, rfl⟩
  exact ⟨t, w, ht, hw, hframe.agenda, hframe.params⟩

/-! ### Words of the spec -/

/-- Settles O5: nine closed instances of the decoder. -/
theorem specWordsDecode : Obligations.SpecWordsDecode := by
  unfold Obligations.SpecWordsDecode
  decide

end Sys2Proof

/-! PROOFS. The family of 40_pwm_commutation.md: the gate signals and the compare values, what each label can do to PCE,
what one tick does and what a whole period of ticks does, and the commutation cycle that follows. -/

namespace Sys2Proof

/-! ### The words of the five commands -/

/-- The low half of `arg0`, read from the command word (30_encoding.md R81, R82). -/
theorem fieldsOf_arg0Low (c : Command) : (fieldsOf c).arg0Low = c.extractLsb' 32 16 := by
  apply BitVec.eq_of_getLsbD_eq
  intro i hi
  simp [fieldsOf, Fields.arg0Low, hi]
  omega

/-- The opcode of a word chooses its command (R94). -/
theorem decode_of_opcode {c : Command} (i : Instr) (h : c.extractLsb' 88 8 = i.opcode) :
    decode c = .ok (i.operandsFrom (fieldsOf c)) :=
  decodeFields_of_opcode h

/-- Two of three different legs are the legs other than the third. -/
theorem Leg.eq_or_eq_iff_ne {a b c : Leg} (hab : a ≠ b) (hac : a ≠ c) (hbc : b ≠ c) (l : Leg) :
    l = a ∨ l = b ↔ l ≠ c := by
  refine ⟨by rintro (rfl | rfl) <;> assumption, fun hl => ?_⟩
  cases a <;> cases b <;> cases c <;> cases l <;> simp_all

end Sys2Proof

namespace Sys2Proof.Machine

/-! ### Gate signals -/

/-- When a high-side switch is on (R113). -/
theorem Pce.hs_eq_true_iff {x : Pce} {l : Leg} :
    x.hs l = true ↔
      x.moe = true ∧ (x.cfgA.get l).en = true ∧ x.ref l = true ∧ x.side.get l = .h ∧ x.dtc.get l = 0 := by
  simp [Pce.hs, and_assoc]

/-- When a low-side switch is on (R113). -/
theorem Pce.ls_eq_true_iff {x : Pce} {l : Leg} :
    x.ls l = true ↔
      x.moe = true ∧ (x.cfgA.get l).nen = true ∧ x.ref l = false ∧ x.side.get l = .l ∧ x.dtc.get l = 0 := by
  simp [Pce.ls, and_assoc]

/-- While the dead time of a leg runs, both its switches are off (R113). -/
theorem Pce.gates_off_of_dtc {x : Pce} {l : Leg} (h : x.dtc.get l ≠ 0) : x.hs l = false ∧ x.ls l = false := by
  simp [Pce.hs, Pce.ls, h]

/-- A floating leg has both switches off (R102, R113). -/
theorem Pce.gates_off_of_floating {x : Pce} {l : Leg} (h : x.cfgA.get l = legOff) :
    x.hs l = false ∧ x.ls l = false := by
  simp [Pce.hs, Pce.ls, Pce.ref, h, legOff]

/-- With the outputs enabled, no dead time running and the side following the reference, the enables and the reference
decide (R113). -/
theorem Pce.gates_of_settled {x : Pce} {l : Leg} (hmoe : x.moe = true) (hdtc : x.dtc.get l = 0)
    (hside : x.side.get l = if x.ref l then .h else .l) :
    x.hs l = ((x.cfgA.get l).en && x.ref l) ∧ x.ls l = ((x.cfgA.get l).nen && !x.ref l) := by
  cases href : x.ref l <;> simp [Pce.hs, Pce.ls, hmoe, hdtc, hside, href]

/-- In PWM mode the reference compares the counter (R111). -/
theorem Pce.ref_of_pwm {x : Pce} {l : Leg} (h : (x.cfgA.get l).mode = .pwm) :
    x.ref l = decide (x.cnt.toNat < (x.cmpA.get l).toNat) := by
  simp [Pce.ref, h, BitVec.lt_def]

/-- Settles O25: the definitions of the signals, and the table by the mode of the leg. -/
theorem gateSignalsOfEachConfiguration : Obligations.GateSignalsOfEachConfiguration := by
  intro x l
  refine ⟨?_, Pce.hs_eq_true_iff, Pce.ls_eq_true_iff, fun h => Pce.gates_off h l, fun hmoe hdtc hside => ?_⟩
  · unfold Pce.ref
    cases (x.cfgA.get l).mode <;> simp [BitVec.lt_def]
  · obtain ⟨hhs, hls⟩ := Pce.gates_of_settled hmoe hdtc hside
    refine ⟨Pce.gates_off_of_floating, fun hc => ?_, fun hc => ?_, fun hc => ?_⟩
    · simp [hhs, hls, Pce.ref, hc]
    · simp [hhs, hls, Pce.ref_of_pwm, hc]
    · simp [hhs, hls, Pce.ref, hc]

/-- Settles O26: the reference of a leg is true for the one switch and false for the other. -/
theorem noShootThrough : Obligations.NoShootThrough := by
  rintro s l ⟨hhs, hls⟩
  obtain ⟨-, -, href, -⟩ := Pce.hs_eq_true_iff.1 hhs
  obtain ⟨-, -, hnref, -⟩ := Pce.ls_eq_true_iff.1 hls
  exact Bool.noConfusion (href.symm.trans hnref)

/-! ### Patterns and compare values -/

/-- R123's shape of the step table: the three roles of a step are three different legs. -/
theorem roles_distinct {p : Params} (h : p.Valid) (k : Fin 6) :
    (roleOf p k).hi ≠ (roleOf p k).lo ∧ (roleOf p k).hi ≠ (roleOf p k).off ∧
      (roleOf p k).lo ≠ (roleOf p k).off := by
  obtain ⟨-, -, hroles, -⟩ := h
  exact hroles k

/-- In a pattern every leg but the OFF leg switches (R101, R123). -/
theorem pattern_get_of_valid {p : Params} (h : p.Valid) (k : Fin 6) (l : Leg) :
    (pattern p k).get l = if l = (roleOf p k).off then legOff else legPwm := by
  obtain ⟨h1, h2, h3⟩ := roles_distinct h k
  rw [pattern_get, if_congr (Leg.eq_or_eq_iff_ne h1 h2 h3 l) rfl rfl, ite_not]

/-- The switching legs of a pattern are its HI and its LO leg (R101). -/
theorem pattern_mode_eq_pwm_iff (p : Params) (k : Fin 6) (l : Leg) :
    ((pattern p k).get l).mode = .pwm ↔ l = (roleOf p k).hi ∨ l = (roleOf p k).lo := by
  rw [pattern_get]
  split <;> simp_all [legPwm, legOff]

/-- With R101's table the patterns have the codes R93 lists. -/
theorem bridgeCode_pattern {p : Params} (hp : p.roles = roleTable) (k : Fin 6) :
    bridgeCode (pattern p k) = (#v[0x2BB, 0xB2B, 0xBB2, 0x2BB, 0xB2B, 0xBB2] : Vector (BitVec 12) 6).get k := by
  simp only [pattern, roleOf, hp]
  revert k
  decide

/-- Settles O31: a pattern is known from its OFF leg, whichever of the three legs that is. -/
theorem everyPatternHasTwoSwitchingLegs : Obligations.EveryPatternHasTwoSwitchingLegs := by
  intro p k hp
  have hget := pattern_get_of_valid hp k
  refine ⟨hget, ?_, ?_, fun l => ?_, fun hr => bridgeCode_pattern hr k⟩
  · simp only [hget]
    cases (roleOf p k).off <;> decide
  · simp only [hget]
    cases (roleOf p k).off <;> decide
  · rw [hget]
    split <;> rfl

/-- The three compare values of `apply_duty` on exact integers, leg by role (R100). -/
theorem compares_of_valid {p : Params} (h : p.Valid) (d : U16) (k : Fin 6) :
    (((compares p d k).get (roleOf p k).hi).toNat : Int) =
        min (max (p.pwmCenter.toNat + dutyOffset p d) 0) p.pwmTop.toNat ∧
      (((compares p d k).get (roleOf p k).lo).toNat : Int) =
        min (max (p.pwmCenter.toNat - dutyOffset p d) 0) p.pwmTop.toNat ∧
      (compares p d k).get (roleOf p k).off = p.pwmCenter := by
  obtain ⟨h1, h2, h3⟩ := roles_distinct h k
  refine ⟨?_, ?_, ?_⟩
  · rw [compares_get, if_pos rfl, sat_toNat]
  · rw [compares_get, if_neg h1.symm, if_pos rfl, sat_toNat]
  · rw [compares_get, if_neg h2.symm, if_neg h3.symm]

/-- Settles O18: the staged compare values are `compares`, and R100's two forms of the offset agree. -/
theorem applyDutySaturates : Obligations.ApplyDutySaturates := by
  intro p x hp q r t
  obtain ⟨hhi, hlo, hoff⟩ := compares_of_valid hp x.duty x.step
  rw [dutyOffset_eq] at hhi hlo
  exact ⟨hhi, hlo, hoff, rfl⟩

/-- Settles O17: the invariants leave a still bridge, which has no switching leg, or the pattern of the present step
(R125). -/
theorem switchingLegsAreThoseOfTheStep : Obligations.SwitchingLegsAreThoseOfTheStep := by
  rintro s h ⟨l, hl⟩
  rcases h.pce.active with hstill | ⟨hcfg, hcmp⟩
  · exact nomatch (still_not_pwm hstill l).symm.trans hl
  · rw [hcfg]
    exact ⟨pattern_mode_eq_pwm_iff s.params s.pce.step, hcmp⟩

/-! ### Commands -/

/-- Settles O19: with zero duty the staged compare values are the centre, and a floating bridge has all gates off. -/
theorem pwmInitFloatsTheBridge : Obligations.PwmInitFloatsTheBridge := by
  refine ⟨fun c hc => decode_of_opcode .pwmInit hc, fun s hp => ⟨_, exec_eq .pwmInit s, ?_, fun l => ?_⟩⟩
  · have hcmp := compares_zero (pwmCenter_le_of_valid hp) 0
    simp only [State.effect, Pce.init, Pce.applyDuty, hcmp]
    rfl
  · exact Pce.gates_off_of_floating (PerLeg.get_all legOff l)

/-- Settles O20: the command's effect is R104's two writes. -/
theorem pwmFloatStagesAndRequests : Obligations.PwmFloatStagesAndRequests :=
  ⟨fun _ hc => decode_of_opcode .pwmFloat hc, exec_eq .pwmFloat⟩

/-- Settles O21: the command's effect is R105's one write. -/
theorem pwmLowOnlyStages : Obligations.PwmLowOnlyStages :=
  ⟨fun _ hc => decode_of_opcode .pwmLow hc, exec_eq .pwmLow⟩

/-- Settles O22: PWM.DUTY is `apply_duty` with the new duty, which reads nothing it writes but the duty. -/
theorem pwmDutyStagesTheCompareValues : Obligations.PwmDutyStagesTheCompareValues := by
  constructor
  · intro c hc
    rw [← fieldsOf_arg0Low]
    exact decode_of_opcode (.pwmDuty 0) hc
  · intro s v hp q r
    obtain ⟨hhi, hlo, hoff⟩ := compares_of_valid hp v s.pce.step
    rw [dutyOffset_eq] at hhi hlo
    exact ⟨_, exec_eq (.pwmDuty v) s, rfl, hhi, hlo, hoff, rfl⟩

/-- Every UPDATE loads the compare values (R109). -/
@[simp] theorem Pce.update_cmpA (x : Pce) : x.update.cmpA = x.cmpS := by
  cases h : x.comReq <;> simp [Pce.update, h]

/-- An UPDATE clears the request it honours, so a further UPDATE loads nothing new (R109). -/
theorem Pce.update_update (x : Pce) : x.update.update = x.update := by
  cases h : x.comReq with
  | true =>
    rw [Pce.update_of_request x h]
    exact Pce.update_of_none _ rfl
  | false =>
    rw [Pce.update_of_none x h]
    exact Pce.update_of_none _ h

/-- Settles O23: the second request finds the flag set, and the UPDATE after it honours both. -/
theorem pwmComOnlyRequests : Obligations.PwmComOnlyRequests :=
  ⟨fun _ hc => decode_of_opcode .pwmCom hc, fun s => ⟨exec_eq .pwmCom s, _, _, exec_eq .pwmCom s, exec_eq .pwmCom _,
    rfl, Pce.update_of_request _ rfl, Pce.update_update _⟩⟩

/-! ### The commutation service -/

@[simp] theorem doSvcCom_pce (s : State) : (doSvcCom s).pce = s.pce.service s.params := rfl

/-- A service writes `com_irq`, the FSM, the staged configuration and the staged compare values, these under the
resulting step (R110). -/
theorem Pce.service_frame (p : Params) (x : Pce) :
    x.service p = { x with
      comIrq := false, running := true, step := (x.service p).step, idle := (x.service p).idle
      cfgS := (x.service p).cfgS, cmpS := compares p x.duty (x.service p).step } := by
  cases h : x.idle with
  | true => rw [Pce.service_of_idle p x h]
  | false => rw [Pce.service_of_active p x h]

/-- Settles O30: the frame of a service, and its two arms. -/
theorem svcComAdvancesOrStagesTheGap : Obligations.SvcComAdvancesOrStagesTheGap := by
  refine fun s => ⟨runLabel_completes_iff .svcCom s, fun hirq =>
    ⟨doSvcCom s, by simp [hirq], ?_, fun h => ?_, fun h => ?_⟩⟩
  · exact congrArg (fun x => (s.withPce x).emit (.ind .com)) (Pce.service_frame s.params s.pce)
  · rw [doSvcCom_pce, Pce.service_of_idle s.params s.pce h]
    exact ⟨step_succ_val s.pce.step, rfl, rfl⟩
  · rw [doSvcCom_pce, Pce.service_of_active s.params s.pce h]
    exact ⟨rfl, rfl, rfl⟩

/-- Settles O36: with zero duty `compares` is the centre under every step, and the invariants say that the staged
compare values are those of the present duty. -/
theorem zeroDutyIsTheCentre : Obligations.ZeroDutyIsTheCentre := by
  intro s t hinv
  have hzero := compares_zero (pwmCenter_le_of_valid hinv.params)
  refine ⟨fun h => ?_, fun hduty h => ?_, fun hduty => ?_⟩
  · obtain rfl := next_eq_next_iff.1 ((exec_eq (.pwmDuty 0) s).symm.trans h)
    exact ⟨rfl, hzero s.pce.step⟩
  · obtain ⟨-, rfl⟩ := guarded_next_iff.1 ((runLabel_svcCom s).symm.trans h)
    rw [doSvcCom_pce, Pce.service_frame, hduty]
    exact ⟨rfl, hzero _, rfl⟩
  · rw [Pce.update_cmpA, hinv.pce.cmpS_current, hduty, hzero]

/-! ### What a label can do to PCE -/

/-- All a label can do to PCE: the labels that write it, each with the state it leaves, and every other label, which
keeps it (R103 to R110, R114, 10_state.md R43, R44). -/
inductive Pce.Change (p : Params) (x : Pce) : Label → Pce → Prop where
  | kept (l : Label) : Change p x l x
  | init {c : Command} (hc : decode c = .ok .pwmInit) : Change p x (.cmd c) (x.init p)
  | float {c : Command} (hc : decode c = .ok .pwmFloat) : Change p x (.cmd c) { x.stage cfgFloat with comReq := true }
  | low {c : Command} (hc : decode c = .ok .pwmLow) : Change p x (.cmd c) (x.stage cfgLowSide)
  | duty {c : Command} {v : U16} (hc : decode c = .ok (.pwmDuty v)) :
      Change p x (.cmd c) (Pce.applyDuty p { x with duty := v })
  | com {c : Command} (hc : decode c = .ok .pwmCom) : Change p x (.cmd c) { x with comReq := true }
  | tick : Change p x .pwmTick (x.tick p)
  | brk : Change p x .brk { x with moe := false }
  | service : Change p x .svcCom (x.service p)
  | reset : Change p x .reset (Pce.reset p)

theorem Pce.Change.of_eq {p : Params} {x y : Pce} (l : Label) (h : y = x) : Pce.Change p x l y :=
  h ▸ .kept l

/-- A command word changes PCE only as one of the five PCE commands. -/
theorem Pce.Change.of_doCmd {c : Command} {s t : State} (h : doCmd c s = .next t) :
    Pce.Change s.params s.pce (.cmd c) t.pce := by
  rcases doCmd_cases h with ⟨i, hc, rfl⟩ | ⟨-, rfl⟩
  · cases i
    case pwmInit => exact .init hc
    case pwmFloat => exact .float hc
    case pwmLow => exact .low hc
    case pwmDuty v => exact .duty hc
    case pwmCom => exact .com hc
    all_goals exact .kept _
  · exact .kept _

/-- Every label that completes changes PCE in one of these ways. -/
theorem Pce.Change.of_runLabel {l : Label} {s t : State} (h : runLabel l s = .next t) :
    Pce.Change s.params s.pce l t.pce := by
  obtain ⟨-, hp⟩ := runLabel_eq_next_iff.1 h
  cases l
  case cmd c => exact .of_doCmd hp
  case pwmTick => obtain rfl := next_eq_next_iff.1 hp; exact .tick
  case brk => obtain rfl := next_eq_next_iff.1 hp; exact .brk
  case svcCom => obtain rfl := next_eq_next_iff.1 hp; exact .service
  case reset => obtain rfl := next_eq_next_iff.1 hp; exact .reset
  all_goals exact .of_eq _ ((WritesOnly.of_perform (by simp) hp).pce (by simp [unitOf]))

/-! ### One tick -/

@[simp] theorem doPwmTick_pce (s : State) : (doPwmTick s).pce = s.pce.tick s.params := rfl

/-- The period boundary is the tick that counts from 1 down to 0 (R108). -/
theorem Pce.boundary_eq_true_iff {x : Pce} : x.boundary = true ↔ x.dir = .down ∧ x.cnt = 1 := by
  have h : x.cnt - 1 = 0 ↔ x.cnt = 1 := by constructor <;> intro h <;> bv_omega
  simp only [Pce.boundary, Bool.and_eq_true, decide_eq_true_eq, h]

@[simp] theorem Pce.tickFree_cfgA (x : Pce) : x.tickFree.cfgA = x.cfgA := rfl
@[simp] theorem Pce.tickFree_cmpA (x : Pce) : x.tickFree.cmpA = x.cmpA := rfl
@[simp] theorem Pce.tickFree_pceOn (x : Pce) : x.tickFree.pceOn = x.pceOn := rfl
@[simp] theorem Pce.tickFree_comIrq (x : Pce) : x.tickFree.comIrq = x.comIrq := rfl

/-- `tickFree` forgets what the counter and the dead-time generator write, so an UPDATE acts on what is left (R120). -/
theorem Pce.tickFree_update (x : Pce) : x.update.tickFree = x.tickFree.update := by
  cases h : x.comReq with
  | true => rw [Pce.update_of_request x h, Pce.update_of_request x.tickFree h]; rfl
  | false => rw [Pce.update_of_none x h, Pce.update_of_none x.tickFree h]; rfl

theorem Pce.tickFree_count (p : Params) (x : Pce) : (x.count p).tickFree = x.tickFree := by
  rw [Pce.count_frame]
  rfl

/-- Without the tick-level state, the tick at the boundary is an UPDATE (R120). -/
theorem Pce.tickFree_tick_of_boundary (p : Params) {x : Pce} (h : x.boundary = true) :
    (x.tick p).tickFree = x.tickFree.update := by
  rw [Pce.tick_eq, if_pos h]
  exact (Pce.tickFree_update _).trans (congrArg Pce.update (Pce.tickFree_count p x))

/-- Without the tick-level state, every other tick changes nothing (R120). -/
theorem Pce.tickFree_tick_of_not_boundary (p : Params) {x : Pce} (h : ¬ x.boundary = true) :
    (x.tick p).tickFree = x.tickFree := by
  rw [Pce.tick_eq, if_neg h]
  exact Pce.tickFree_count p x

/-- UPDATE and the dead-time generator leave the counter alone (R108). -/
theorem Pce.tick_counter (p : Params) (x : Pce) :
    (x.tick p).cnt = (x.count p).cnt ∧ (x.tick p).dir = (x.count p).dir := by
  have hupdate : (x.count p).update.cnt = (x.count p).cnt ∧ (x.count p).update.dir = (x.count p).dir := by
    unfold Pce.update
    split <;> exact ⟨rfl, rfl⟩
  rw [Pce.tick_eq]
  split
  · exact hupdate
  · exact ⟨rfl, rfl⟩

/-- A tick below PWM_TOP counts up, and turns at PWM_TOP (R108). -/
theorem Pce.tick_up {p : Params} {x : Pce} (hdir : x.dir = .up) (hlt : x.cnt.toNat < p.pwmTop.toNat) :
    (x.tick p).cnt.toNat = x.cnt.toNat + 1 ∧
      (x.tick p).dir = if x.cnt.toNat + 1 = p.pwmTop.toNat then .down else .up := by
  obtain ⟨hcnt, hdir'⟩ := Pce.tick_counter p x
  have hturn : x.cnt + 1 = p.pwmTop ↔ x.cnt.toNat + 1 = p.pwmTop.toNat := by
    constructor <;> intro h <;> bv_omega
  rw [hcnt, hdir', ← if_congr hturn rfl rfl]
  simp only [Pce.count, hdir, and_true]
  bv_omega

/-- A tick above 0 counts down, and turns at 0 (R108). -/
theorem Pce.tick_down {p : Params} {x : Pce} (hdir : x.dir = .down) (hpos : 0 < x.cnt.toNat) :
    (x.tick p).cnt.toNat + 1 = x.cnt.toNat ∧ (x.tick p).dir = if x.cnt.toNat = 1 then .up else .down := by
  obtain ⟨hcnt, hdir'⟩ := Pce.tick_counter p x
  have hturn : x.cnt - 1 = 0 ↔ x.cnt.toNat = 1 := by
    constructor <;> intro h <;> bv_omega
  rw [hcnt, hdir', ← if_congr hturn rfl rfl]
  simp only [Pce.count, hdir, and_true]
  bv_omega

/-- After a tick the side of a leg follows its reference, both with the new counter and the new active registers
(R112). -/
theorem Pce.tick_side (p : Params) (x : Pce) (l : Leg) :
    (x.tick p).side.get l = if (x.tick p).ref l then .h else .l := by
  rw [Pce.tick_eq]
  exact PerLeg.get_ofFn _ l

/-- What a tick does to the active registers and the event flags, each as a formula of the state before (R108, R109). -/
theorem Pce.tick_active (p : Params) (x : Pce) :
    (x.tick p).cmpA = (if x.boundary then x.cmpS else x.cmpA) ∧
      (x.tick p).cfgA = (if x.boundary && x.comReq then x.cfgS else x.cfgA) ∧
      (x.tick p).comReq = (x.comReq && !x.boundary) ∧ (x.tick p).comIrq = (x.comIrq || x.boundary && x.comReq) := by
  rw [Pce.tick_eq, Pce.count_frame]
  cases hreq : x.comReq <;> cases x.boundary <;> simp [Pce.deadTime, Pce.update]

/-- Settles O24: the counter by its direction, the active registers by whether the tick is the boundary, and the
dead-time generator in both cases. -/
theorem pwmTickCountsUpdatesAndDelays : Obligations.PwmTickCountsUpdatesAndDelays := by
  intro s hinv
  have hboundary : s.pce.boundary = true ↔ s.pce.dir = .down ∧ s.pce.cnt.toNat = 1 := by
    rw [Pce.boundary_eq_true_iff, BitVec.toNat_eq]
    rfl
  obtain ⟨hcmpA, hcfgA, hreq, hirq⟩ := Pce.tick_active s.params s.pce
  refine ⟨runLabel_completes_iff .pwmTick s, fun hon => ⟨doPwmTick s, by simp [hon],
    congrArg s.withPce (Pce.tick_frame s.params s.pce), fun hdir => ?_, fun hdir => ?_, fun hb => ?_, fun hb => ?_,
    fun l => ⟨Pce.tick_side s.params s.pce l, Pce.tick_dtc s.params s.pce l⟩⟩⟩
  · exact Pce.tick_up hdir (BitVec.lt_def.1 (hinv.pce.up_lt hdir))
  · exact Pce.tick_down hdir (BitVec.lt_def.1 (hinv.pce.down_pos hdir).1)
  · simp +contextual [hcmpA, hcfgA, hreq, hirq, hboundary.2 hb]
  · simp [hcmpA, hcfgA, hreq, hirq, mt hboundary.1 hb]

/-! ### What changes the outputs, the active configuration and the request -/

/-- Settles O32: of the changes of PCE only PWM.INIT writes `moe` with true. -/
theorem breakLatchesUntilPwmInit : Obligations.BreakLatchesUntilPwmInit := by
  refine ⟨fun s => rfl, fun l s t hmoe h => ⟨fun g => Pce.gates_off hmoe g, fun ht => ?_⟩⟩
  have hchange := Pce.Change.of_runLabel h
  generalize t.pce = y at hchange ht
  cases hchange with
  | init hc => exact ⟨_, rfl, hc⟩
  | tick => exact absurd ht (by simp [hmoe])
  | service => rw [Pce.service_frame] at ht; exact absurd ht (by simp [hmoe])
  | brk | reset => exact nomatch ht
  | kept | float | low | duty | com => exact absurd ht (by simp [hmoe, Pce.stage, Pce.applyDuty])

/-- A tick changes the active configuration only at the boundary, with a request pending (R109, R116). -/
theorem Pce.tick_of_cfgA_ne {p : Params} {x : Pce} (h : (x.tick p).cfgA ≠ x.cfgA) :
    x.boundary = true ∧ x.comReq = true ∧ (x.tick p).cfgA = x.cfgS ∧ (x.tick p).comIrq = true := by
  obtain ⟨-, hcfgA, -, hirq⟩ := Pce.tick_active p x
  cases hb : x.boundary <;> cases hreq : x.comReq <;> simp_all

/-- Settles O33: of the changes of PCE only the tick, PWM.INIT and RESET write the active configuration. -/
theorem activeConfigurationChangesOnlyAtEvents : Obligations.ActiveConfigurationChangesOnlyAtEvents := by
  intro l s t h hne
  have hchange := Pce.Change.of_runLabel h
  generalize t.pce = y at hchange hne ⊢
  cases hchange with
  | tick =>
    obtain ⟨hb, hreq, hcfg, hirq⟩ := Pce.tick_of_cfgA_ne hne
    obtain ⟨hdir, hcnt⟩ := Pce.boundary_eq_true_iff.1 hb
    exact .inl ⟨rfl, hdir, hcnt, hreq, hcfg, hirq⟩
  | init hc => exact .inr (.inl ⟨_, rfl, hc, rfl⟩)
  | reset => exact .inr (.inr ⟨rfl, rfl⟩)
  | service => rw [Pce.service_frame] at hne; exact absurd rfl hne
  | kept | float | low | duty | com | brk => exact absurd rfl hne

/-- A tick sets no request (R109, R124). -/
theorem Pce.tick_comReq_of_none (p : Params) {x : Pce} (h : x.comReq = false) : (x.tick p).comReq = false := by
  obtain ⟨-, -, hreq, -⟩ := Pce.tick_active p x
  rw [hreq, h, Bool.false_and]

/-- Settles O34: of the changes of PCE only PWM.COM and PWM.FLOAT write `com_req` with true. -/
theorem onlyComAndFloatRequestEvents : Obligations.OnlyComAndFloatRequestEvents := by
  intro l s t h hreq ht
  have hchange := Pce.Change.of_runLabel h
  generalize t.pce = y at hchange ht
  cases hchange with
  | com hc => exact ⟨_, rfl, .inl hc⟩
  | float hc => exact ⟨_, rfl, .inr hc⟩
  | tick => exact nomatch (Pce.tick_comReq_of_none s.params hreq).symm.trans ht
  | service => rw [Pce.service_frame] at ht; exact nomatch hreq.symm.trans ht
  | init | reset => exact nomatch ht
  | kept | low | duty | brk => exact nomatch hreq.symm.trans ht

/-! ### Runs of ticks -/

/-- n ticks write PCE only, each by `Pce.tick` (R108). -/
theorem doPwmTick_iterate (n : Nat) (s : State) :
    doPwmTick^[n] s = s.withPce ((Pce.tick s.params)^[n] s.pce) := by
  induction n generalizing s with
  | zero => rfl
  | succ n ih => rw [Function.iterate_succ_apply, Function.iterate_succ_apply, ih]; rfl

/-- A run of ticks of a machine whose counter runs (R108). -/
theorem runLabels_pwmTicks_withPce {s : State} (h : s.pce.pceOn = true) (n : Nat) :
    runLabels (List.replicate n .pwmTick) s = .next (s.withPce ((Pce.tick s.params)^[n] s.pce)) := by
  rw [runLabels_pwmTicks h, doPwmTick_iterate]

/-- k ticks lower the dead-time count of a leg by at most k: a further change of side only reloads it (R112). -/
theorem Pce.le_dtc_iterate {p : Params} {x : Pce} {l : Leg} (h : p.deadTime ≤ x.dtc.get l) (k : Nat) :
    p.deadTime - k ≤ ((Pce.tick p)^[k] x).dtc.get l := by
  induction k with
  | zero => exact h
  | succ k ih =>
    rw [Function.iterate_succ_apply', Pce.tick_dtc]
    split <;> omega

/-- Settles O27: the change of side loads the dead time, and for k < DEAD_TIME ticks the count stays positive. -/
theorem deadTimeHoldsBothSwitchesOff : Obligations.DeadTimeHoldsBothSwitchesOff := by
  intro s t l h hside k hk
  obtain ⟨hon, rfl⟩ := guarded_next_iff.1 ((runLabel_pwmTick s).symm.trans h)
  have hload : (doPwmTick s).pce.dtc.get l = s.params.deadTime :=
    (Pce.tick_dtc s.params s.pce l).trans (if_pos hside)
  have hon' : (doPwmTick s).pce.pceOn = true := (Pce.tick_pceOn s.params s.pce).trans hon
  refine ⟨_, runLabels_pwmTicks_withPce hon' k, Pce.gates_off_of_dtc (Nat.ne_of_gt ?_)⟩
  exact Nat.lt_of_lt_of_le (Nat.sub_pos_of_lt hk) (Pce.le_dtc_iterate hload.ge k)

/-! ### One period -/

/-- PCE is k ticks into a PWM period: the counter has gone up to PWM_TOP and back as far as k says (R108). -/
structure Pce.AtPhase (p : Params) (k : Nat) (x : Pce) : Prop where
  cnt : x.cnt.toNat = min k (2 * p.pwmTop.toNat - k)
  dir : x.dir = if k < p.pwmTop.toNat then .up else .down

/-- The start of a period is its phase 0 (R108). -/
theorem Pce.atPhase_zero_iff {p : Params} (hp : p.Valid) {x : Pce} :
    x.AtPhase p 0 ↔ x.cnt = 0 ∧ x.dir = .up := by
  have htop : 0 < p.pwmTop.toNat := BitVec.lt_def.1 (pwmTop_pos_of_valid hp)
  constructor
  · rintro ⟨hcnt, hdir⟩
    exact ⟨BitVec.eq_of_toNat_eq (by simpa using hcnt), by rw [hdir, if_pos htop]⟩
  · rintro ⟨hcnt, hdir⟩
    exact ⟨by simp [hcnt], by rw [hdir, if_pos htop]⟩

/-- The last phase of a period, and no other, is before the boundary (R108). -/
theorem Pce.AtPhase.boundary_iff {p : Params} {k : Nat} {x : Pce} (h : x.AtPhase p k)
    (hk : k < 2 * p.pwmTop.toNat) : x.boundary = true ↔ k + 1 = 2 * p.pwmTop.toNat := by
  obtain ⟨hcnt, hdir⟩ := h
  rw [Pce.boundary_eq_true_iff, BitVec.toNat_eq, hcnt, hdir]
  by_cases hup : k < p.pwmTop.toNat <;> simp [hup] <;> omega

/-- One tick goes to the next phase, and from the last phase of a period to the first of the next (R108). -/
theorem Pce.AtPhase.tick {p : Params} {k : Nat} {x : Pce} (h : x.AtPhase p k) (hk : k < 2 * p.pwmTop.toNat) :
    (x.tick p).AtPhase p (if k + 1 = 2 * p.pwmTop.toNat then 0 else k + 1) := by
  obtain ⟨hcnt, hdir⟩ := h
  by_cases hup : k < p.pwmTop.toNat
  · rw [if_pos hup] at hdir
    obtain ⟨hcnt', hdir'⟩ := Pce.tick_up (p := p) hdir (by omega)
    rw [if_neg (by omega)]
    refine ⟨by omega, hdir'.trans ?_⟩
    by_cases hturn : k + 1 = p.pwmTop.toNat
    · rw [if_pos (by omega), if_neg (by omega)]
    · rw [if_neg (by omega), if_pos (by omega)]
  · rw [if_neg hup] at hdir
    obtain ⟨hcnt', hdir'⟩ := Pce.tick_down (p := p) hdir (by omega)
    by_cases hlast : k + 1 = 2 * p.pwmTop.toNat
    · rw [if_pos hlast]
      exact ⟨by omega, by rw [hdir', if_pos (by omega), if_pos (by omega)]⟩
    · rw [if_neg hlast]
      exact ⟨by omega, by rw [hdir', if_neg (by omega), if_neg (by omega)]⟩

/-- Before the boundary of the period k ticks are k phases, and change nothing but the tick-level state (R120). -/
theorem Pce.AtPhase.iterate {p : Params} {x : Pce} (h : x.AtPhase p 0) {k : Nat} (hk : k < 2 * p.pwmTop.toNat) :
    ((Pce.tick p)^[k] x).AtPhase p k ∧ ((Pce.tick p)^[k] x).tickFree = x.tickFree := by
  induction k with
  | zero => exact ⟨h, rfl⟩
  | succ k ih =>
    obtain ⟨hphase, hfree⟩ := ih (by omega)
    have hb := (hphase.boundary_iff (by omega)).not.2 (by omega)
    have hnext := hphase.tick (by omega)
    rw [if_neg (by omega)] at hnext
    rw [Function.iterate_succ_apply']
    exact ⟨hnext, (Pce.tickFree_tick_of_not_boundary p hb).trans hfree⟩

/-- A whole period comes back to its start, with one UPDATE (R120). -/
theorem Pce.AtPhase.period {p : Params} (hp : p.Valid) {x : Pce} (h : x.AtPhase p 0) :
    ((Pce.tick p)^[2 * p.pwmTop.toNat] x).AtPhase p 0 ∧
      ((Pce.tick p)^[2 * p.pwmTop.toNat] x).tickFree = x.update.tickFree := by
  have htop : 0 < p.pwmTop.toNat := BitVec.lt_def.1 (pwmTop_pos_of_valid hp)
  obtain ⟨k, hk⟩ : ∃ k, 2 * p.pwmTop.toNat = k + 1 := ⟨2 * p.pwmTop.toNat - 1, by omega⟩
  obtain ⟨hphase, hfree⟩ := h.iterate (k := k) (by omega)
  have hb := (hphase.boundary_iff (by omega)).2 hk.symm
  have hnext := hphase.tick (by omega)
  rw [if_pos hk.symm] at hnext
  rw [hk, Function.iterate_succ_apply']
  refine ⟨hnext, ?_⟩
  rw [Pce.tickFree_tick_of_boundary p hb, hfree, Pce.tickFree_update]

/-- Settles O28: the phases of the period, and the UPDATE of its last tick. -/
theorem onePeriodIsOneUpdate : Obligations.OnePeriodIsOneUpdate := by
  intro s hp hon hcnt hdir
  have hstart := (Pce.atPhase_zero_iff hp).2 ⟨hcnt, hdir⟩
  obtain ⟨hphase, hfree⟩ := hstart.period hp
  obtain ⟨hcnt', hdir'⟩ := (Pce.atPhase_zero_iff hp).1 hphase
  exact ⟨fun k hk => ⟨_, runLabels_pwmTicks_withPce hon k, rfl, (hstart.iterate hk).2⟩,
    _, runLabels_pwmTicks_withPce hon _, rfl, hcnt', hdir', hfree⟩

/-! ### The high time of a period -/

/-- On the way up and down again, max(2c - 1, 0) of the 2 N values of the counter are below c (R111). -/
theorem length_filter_triangle_lt {c N : Nat} (h : c ≤ N) :
    ((List.range (2 * N)).filter fun k => decide (min k (2 * N - k) < c)).length = 2 * c - 1 := by
  have hset : ((List.range (2 * N)).filter fun k => decide (min k (2 * N - k) < c)).toFinset =
      Finset.range (2 * N) \ Finset.Ico c (2 * N - (c - 1)) := by
    ext k
    simp
    omega
  have hsub : Finset.Ico c (2 * N - (c - 1)) ⊆ Finset.range (2 * N) := by
    intro k
    simp
    omega
  rw [← List.toFinset_card_of_nodup (List.nodup_range.filter _), hset, Finset.card_sdiff_of_subset hsub,
    Finset.card_range, Nat.card_Ico]
  omega

/-- Settles O29: within the period the active registers stay, so the reference follows the counter's triangle. -/
theorem highTimeOfOnePeriod : Obligations.HighTimeOfOnePeriod := by
  intro s l hp hon hcnt hdir hmode hle
  have hstart := (Pce.atPhase_zero_iff hp).2 ⟨hcnt, hdir⟩
  rw [← length_filter_triangle_lt (BitVec.le_def.1 hle)]
  refine congrArg List.length (List.filter_congr fun k hk => ?_)
  obtain ⟨hphase, hfree⟩ := hstart.iterate (List.mem_range.1 hk)
  have hcfgA : ((Pce.tick s.params)^[k] s.pce).cfgA = s.pce.cfgA := by
    simpa using congrArg Pce.cfgA hfree
  have hcmpA : ((Pce.tick s.params)^[k] s.pce).cmpA = s.pce.cmpA := by
    simpa using congrArg Pce.cmpA hfree
  rw [runLabels_pwmTicks_withPce hon k]
  simp only [State.withPce_pce]
  rw [Pce.ref_of_pwm (hcfgA ▸ hmode), hcmpA, hphase.cnt]

/-! ### The commutation cycle -/

/-- The service reads and writes nothing of the tick-level state (R110, R120). -/
theorem Pce.tickFree_service (p : Params) (x : Pce) : (x.service p).tickFree = x.tickFree.service p := by
  cases h : x.idle with
  | true => rw [Pce.service_of_idle p x h, Pce.service_of_idle p x.tickFree h]; rfl
  | false => rw [Pce.service_of_active p x h, Pce.service_of_active p x.tickFree h]; rfl

/-- PCE with an event requested, and after the UPDATE that honours it: the staged registers are active (R109). -/
def Pce.commuted (x : Pce) : Pce := { x with cmpA := x.cmpS, cfgA := x.cfgS, comReq := false, comIrq := true }

/-- A machine at the start of a PWM period, with parameters `p` and its counter running. -/
structure State.AtPeriodStart (p : Params) (s : State) : Prop where
  params : s.params = p
  on : s.pce.pceOn = true
  phase : s.pce.AtPhase p 0

/-- The request: PWM.COM sets `com_req` and keeps the phase (R107). -/
theorem State.AtPeriodStart.pwmCom {p : Params} {s : State} (h : s.AtPeriodStart p) :
    ∃ t, runLabel (.cmd (encode .pwmCom)) s = .next t ∧ t.AtPeriodStart p ∧
      t.pce = { s.pce with comReq := true } :=
  ⟨_, (doCmd_ok (decode_encode .pwmCom) s).trans (exec_eq .pwmCom s), ⟨h.params, h.on, h.phase.cnt, h.phase.dir⟩,
    rfl⟩

/-- The period: 2 * PWM_TOP ticks lead to the start of the next period, with one UPDATE (R120). -/
theorem State.AtPeriodStart.period {p : Params} (hp : p.Valid) {s : State} (h : s.AtPeriodStart p) :
    ∃ t, runLabels (List.replicate (2 * p.pwmTop.toNat) .pwmTick) s = .next t ∧ t.AtPeriodStart p ∧
      t.pce.tickFree = s.pce.update.tickFree := by
  obtain ⟨rfl, hon, hphase⟩ := h
  obtain ⟨hphase', hfree⟩ := hphase.period hp
  have hupdate : s.pce.update.pceOn = s.pce.pceOn := by cases hr : s.pce.comReq <;> simp [Pce.update, hr]
  have hon' := congrArg Pce.pceOn hfree
  rw [Pce.tickFree_pceOn, Pce.tickFree_pceOn, hupdate] at hon'
  exact ⟨_, runLabels_pwmTicks_withPce hon _, ⟨rfl, hon'.trans hon, hphase'⟩, hfree⟩

/-- The service: SVC_COM keeps the phase (R110). -/
theorem State.AtPeriodStart.svcCom {p : Params} {s : State} (h : s.AtPeriodStart p) (hirq : s.pce.comIrq = true) :
    ∃ t, runLabel .svcCom s = .next t ∧ t.AtPeriodStart p ∧ t.pce = s.pce.service p := by
  obtain ⟨rfl, hon, hphase⟩ := h
  refine ⟨doSvcCom s, by simp [hirq], ⟨rfl, ?_, ?_, ?_⟩, doSvcCom_pce s⟩ <;>
    rw [doSvcCom_pce, Pce.service_frame]
  · exact hon
  · exact hphase.cnt
  · exact hphase.dir

/-- A round of the environment of R117 completes, lasts one period, and is one commutation and its service. -/
theorem State.AtPeriodStart.round {p : Params} (hp : p.Valid) {s : State} (h : s.AtPeriodStart p) :
    ∃ t, runLabels (commutationRound p) s = .next t ∧ t.AtPeriodStart p ∧
      t.pce.tickFree = (s.pce.commuted.service p).tickFree := by
  obtain ⟨r, hr, hstart, hreq⟩ := h.pwmCom
  obtain ⟨u, hu, hstart, hfree⟩ := hstart.period hp
  rw [hreq, Pce.update_of_request _ rfl] at hfree
  obtain ⟨t, ht, hstart, hservice⟩ := hstart.svcCom (by simpa using congrArg Pce.comIrq hfree)
  refine ⟨t, ?_, hstart, ?_⟩
  · rw [commutationRound, runLabels_cons_next hr, runLabels_append hu, runLabels_cons_next ht, runLabels_nil]
  · rw [hservice, Pce.tickFree_service, hfree, Pce.tickFree_service]
    rfl

/-- Where the cycle of R119 stands after n rounds: the step, whether the next service advances, the configuration
staged for the next event, and the one the last event made active. -/
structure Pce.InCycle (p : Params) (n : Nat) (x : Pce) : Prop where
  step : x.step.val = (n + 1) / 2 % 6
  idle : x.idle = decide (n % 2 = 0)
  staged : x.cfgS = if x.idle then cfgFloat else pattern p x.step
  active : 0 < n → x.cfgA = if x.idle then pattern p x.step else cfgFloat
  running : 0 < n → x.running = true

/-- The cycle does not depend on the tick-level state (R120). -/
theorem Pce.InCycle.of_tickFree {p : Params} {n : Nat} {x y : Pce} (h : x.InCycle p n)
    (hfree : y.tickFree = x.tickFree) : y.InCycle p n := by
  have hx : x.tickFree.InCycle p n := ⟨h.step, h.idle, h.staged, h.active, h.running⟩
  rw [← hfree] at hx
  exact ⟨hx.step, hx.idle, hx.staged, hx.active, hx.running⟩

/-- PWM.INIT enters the cycle before its first event (R103). -/
theorem Pce.inCycle_init (p : Params) (x : Pce) : (x.init p).InCycle p 0 :=
  ⟨rfl, rfl, rfl, nofun, nofun⟩

/-- A commutation and its service go on in the cycle: what was staged is active, and the next one is staged (R119). -/
theorem Pce.InCycle.commute {p : Params} {n : Nat} {x : Pce} (h : x.InCycle p n) :
    (x.commuted.service p).InCycle p (n + 1) := by
  obtain ⟨hstep, hidle, hstaged, -, -⟩ := h
  by_cases hn : n % 2 = 0
  · have hidle : x.idle = true := by simpa [hn] using hidle
    rw [Pce.service_of_idle p x.commuted hidle]
    have hnext : (x.step + 1).val = (n + 1 + 1) / 2 % 6 := by rw [step_succ_val]; omega
    have hfloat : x.cfgS = cfgFloat := by simpa [hidle] using hstaged
    exact ⟨hnext, by simp; omega, rfl, fun _ => hfloat, fun _ => rfl⟩
  · have hidle : x.idle = false := by simpa [hn] using hidle
    rw [Pce.service_of_active p x.commuted hidle]
    have hsame : x.step.val = (n + 1 + 1) / 2 % 6 := by omega
    have hpattern : x.cfgS = pattern p x.step := by simpa [hidle] using hstaged
    exact ⟨hsame, by simp; omega, rfl, fun _ => hpattern, fun _ => rfl⟩

/-- n rounds are n commutations (R117, R119). -/
theorem State.AtPeriodStart.rounds {p : Params} (hp : p.Valid) {s : State} (h : s.AtPeriodStart p)
    (hcycle : s.pce.InCycle p 0) (n : Nat) :
    ∃ t, runLabels (List.replicate n (commutationRound p)).flatten s = .next t ∧ t.AtPeriodStart p ∧
      t.pce.InCycle p n := by
  induction n with
  | zero => exact ⟨s, rfl, h, hcycle⟩
  | succ n ih =>
    obtain ⟨u, hu, hstart, hcycle⟩ := ih
    obtain ⟨t, ht, hstart, hfree⟩ := hstart.round hp
    refine ⟨t, ?_, hstart, hcycle.commute.of_tickFree hfree⟩
    rw [List.replicate_succ', List.flatten_concat, runLabels_append hu, ht]

/-- Settles O35: PWM.INIT starts a period and the cycle, and the rounds go through it. -/
theorem commutationVisitsTheStepsInOrder : Obligations.CommutationVisitsTheStepsInOrder := by
  intro s n hp hn
  have hinit : runLabel (.cmd (encode .pwmInit)) s = .next ((s.effect .pwmInit).respond respOk) :=
    (doCmd_ok (decode_encode .pwmInit) s).trans (exec_eq .pwmInit s)
  have hstart : ((s.effect .pwmInit).respond respOk).AtPeriodStart s.params :=
    ⟨rfl, rfl, (Pce.atPhase_zero_iff hp).2 ⟨rfl, rfl⟩⟩
  obtain ⟨t, ht, -, hcycle⟩ := hstart.rounds hp (Pce.inCycle_init s.params s.pce) n
  obtain ⟨hstep, hidle, -, hactive, hrunning⟩ := hcycle
  have hcfgA := hactive hn
  refine ⟨t, (runLabels_cons_next hinit _).trans ht, fun hodd => ?_, fun heven => ?_, hrunning hn⟩
  · have hidle : t.pce.idle = false := by simpa [hodd] using hidle
    exact ⟨by simpa [hidle] using hcfgA, hstep, hidle⟩
  · have hidle : t.pce.idle = true := by simpa [heven] using hidle
    exact ⟨by simpa [hidle] using hcfgA, by omega, hidle⟩

end Sys2Proof.Machine

/-! PROOFS. The family of 41_adc_pipeline.md: what ADC.INIT, a beat and the three services do to AAP, which label counts
an error, and the lap of eight beats that fills the buffer. -/

namespace Sys2Proof.Machine

/-! ### ADC.INIT -/

/-- Settles O37: the command's effect is R140's writes, and the two handles stand in `cb` and the low half of `arg0`. -/
theorem adcInitRestartsTheLap : Obligations.AdcInitRestartsTheLap := by
  constructor
  · intro c hc
    rw [← fieldsOf_arg0Low]
    exact decode_of_opcode (.adcInit 0 0) hc
  · exact fun s half full => exec_eq (.adcInit half full) s

/-! ### One beat -/

/-- A beat keeps a half notification and raises it when it completes the first half (41_adc_pipeline.md R142). -/
theorem Aap.beat_htIrq_iff (a1 a2 : U16) (x : Aap) :
    (x.beat a1 a2).htIrq = true ↔ x.wr.val = 3 ∨ x.htIrq = true := by
  simp [Aap.beat, Fin.ext_iff, or_comm]

/-- A beat keeps a full notification and raises it when it completes the second half (R142). -/
theorem Aap.beat_tcIrq_iff (a1 a2 : U16) (x : Aap) :
    (x.beat a1 a2).tcIrq = true ↔ x.wr.val = 7 ∨ x.tcIrq = true := by
  simp [Aap.beat, Fin.ext_iff, or_comm]

/-- Settles O38: a beat is taken exactly when `acq_on`, and each clause is one of the beat's writes. -/
theorem dmaBeatWritesItsPair : Obligations.DmaBeatWritesItsPair := by
  refine fun s a1 a2 => ⟨runLabel_completes_iff (.dmaBeat a1 a2) s, fun hon =>
    ⟨doDmaBeat a1 a2 s, by simp [hon], rfl, ?_, ?_, ?_, doDmaBeat_wr_val a1 a2 s⟩⟩
  · exact readSample_writeBeat s.aap.buf s.aap.wr a1 a2
  · exact Aap.beat_htIrq_iff a1 a2 s.aap
  · exact Aap.beat_tcIrq_iff a1 a2 s.aap

/-! ### The services -/

/-- An output followed by a notification is one list of outputs. -/
theorem State.notifyAdc_emit (s : State) (o : Output) (cb : Option Handle) (isFull : Bool) :
    (s.emit o).notifyAdc cb isFull = s.emitAll (o :: cb.toList.map fun h => .cbAdc h isFull s.aap.buf) := by
  rw [State.notifyAdc_eq]
  simp [State.emitAll, State.emit]

theorem doSvcHt_eq (s : State) :
    doSvcHt s = (s.withAap { s.aap with htIrq := false }).emitAll
      (.ind .adcHt :: s.aap.halfCb.toList.map fun h => .cbAdc h false s.aap.buf) :=
  State.notifyAdc_emit _ _ _ _

theorem doSvcTc_eq (s : State) :
    doSvcTc s = (s.withAap { s.aap with tcIrq := false }).emitAll
      (.ind .adcTc :: s.aap.fullCb.toList.map fun h => .cbAdc h true s.aap.buf) :=
  State.notifyAdc_emit _ _ _ _

/-- Settles O41: each service is guarded by its flag, clears it and emits its list of outputs. -/
theorem adcServicesNotify : Obligations.AdcServicesNotify := by
  refine fun s => ⟨runLabel_completes_iff .svcHt s, runLabel_completes_iff .svcTc s, fun hht => ?_, fun htc => ?_⟩
  · rw [runLabel_svcHt, if_pos hht, doSvcHt_eq]
    rfl
  · rw [runLabel_svcTc, if_pos htc, doSvcTc_eq]
    rfl

/-! ### The error counter -/

/-- The error count on natural numbers: it stops at 2^32 - 1 (R146). -/
theorem saturatingSucc_toNat (n : U32) : (saturatingSucc n).toNat = min (n.toNat + 1) (2 ^ 32 - 1) := by
  unfold saturatingSucc
  split <;> bv_omega

/-- Settles O42: an error raises its flag, and the service of the flag counts it. -/
theorem dmaErrorsAreOnlyCounted : Obligations.DmaErrorsAreOnlyCounted := by
  refine fun s => ⟨runLabel_completes_iff .dmaErr s, runLabel_completes_iff .svcTe s, fun hon => ?_, fun hte => ?_⟩
  · rw [runLabel_dmaErr, if_pos hon]
    rfl
  · exact ⟨doSvcTe s, by simp [hte], rfl, saturatingSucc_toNat s.aap.errCnt⟩

/-- No command writes the error counter (R140). -/
@[simp] theorem State.effect_errCnt (s : State) (i : Instr) : (s.effect i).aap.errCnt = s.aap.errCnt := by
  cases i <;> rfl

/-- A command word, legal or not, keeps the error counter. -/
theorem errCnt_of_doCmd {c : Command} {s t : State} (h : doCmd c s = .next t) : t.aap.errCnt = s.aap.errCnt := by
  rcases doCmd_cases h with ⟨i, -, rfl⟩ | ⟨-, rfl⟩
  · exact State.effect_errCnt s i
  · rfl

/-- All a label other than RESET can do to the error counter: SVC_TE counts, every other label keeps it
(10_state.md R35). -/
theorem errCnt_of_perform {l : Label} {s t : State} (hl : l ≠ .reset) (h : perform l s = .next t) :
    t.aap.errCnt = if l = .svcTe then saturatingSucc s.aap.errCnt else s.aap.errCnt := by
  cases l
  case cmd c => exact errCnt_of_doCmd h
  case dmaBeat | dmaErr | svcTe => obtain rfl := next_eq_next_iff.1 h; rfl
  case svcHt => obtain rfl := next_eq_next_iff.1 h; rw [doSvcHt_eq]; rfl
  case svcTc => obtain rfl := next_eq_next_iff.1 h; rw [doSvcTc_eq]; rfl
  all_goals exact congrArg Aap.errCnt ((WritesOnly.of_perform hl h).aap (by simp [unitOf]))

/-- Settles O43: only SVC_TE writes the counter, and a saturating count does not go down. -/
theorem errorCounterNeverDecreases : Obligations.ErrorCounterNeverDecreases := by
  intro l s t hl h
  obtain ⟨-, hp⟩ := runLabel_eq_next_iff.1 h
  rw [errCnt_of_perform hl hp]
  split
  · rw [saturatingSucc_toNat]
    omega
  · exact Nat.le_refl _

/-! ### One lap -/

/-- The beat that carries the pair of samples of `a` at position `b` (R142). -/
def lapBeat (a : Vector U16 16) (b : Fin 8) : Label :=
  .dmaBeat (readSample a ⟨2 * b.val, by omega⟩) (readSample a ⟨2 * b.val + 1, by omega⟩)

/-- The eight beats of a lap that carries the samples of `a` in DMA-write order (R141, R142). -/
def lapBeats (a : Vector U16 16) : List Label := List.ofFn (lapBeat a)

/-- AAP after the first n beats of a lap that carries the samples of `a`. -/
structure Aap.InLap (a : Vector U16 16) (n : Nat) (x : Aap) : Prop where
  on : x.acqOn = true
  wr : x.wr.val = n % 8
  written : ∀ k : Fin 16, k.val < 2 * n → readSample x.buf k = readSample a k
  half : 4 ≤ n → x.htIrq = true
  full : 8 ≤ n → x.tcIrq = true

/-- The next beat of a lap writes the next pair, and raises the notification of the half it completes (R142). -/
theorem Aap.InLap.beat {a : Vector U16 16} {x : Aap} {b : Fin 8} (h : x.InLap a b.val) :
    (x.beat (readSample a ⟨2 * b.val, by omega⟩) (readSample a ⟨2 * b.val + 1, by omega⟩)).InLap a (b.val + 1) := by
  obtain ⟨hon, hwr, hwritten, hhalf, hfull⟩ := h
  have hpos : x.wr = b := Fin.ext (by omega)
  subst hpos
  refine ⟨hon, rfl, fun k hk => ?_, fun hn => ?_, fun hn => ?_⟩
  · refine (readSample_writeBeat x.buf x.wr _ _ k).trans ?_
    split
    case isTrue heven => exact congrArg (readSample a) (Fin.ext heven.symm)
    case isFalse heven =>
      split
      case isTrue hodd => exact congrArg (readSample a) (Fin.ext hodd.symm)
      case isFalse hodd => exact hwritten k (by omega)
  · rw [Aap.beat_htIrq_iff]
    exact (Nat.eq_or_lt_of_le hn).imp (by omega) fun hlt => hhalf (by omega)
  · rw [Aap.beat_tcIrq_iff]
    exact .inl (by omega)

/-- The next beat of a lap completes. -/
theorem runLabel_lapBeat {a : Vector U16 16} {s : State} {b : Fin 8} (h : s.aap.InLap a b.val) :
    ∃ t, runLabel (lapBeat a b) s = .next t ∧ t.aap.InLap a (b.val + 1) :=
  ⟨doDmaBeat _ _ s, by rw [lapBeat, runLabel_dmaBeat, if_pos h.on], h.beat⟩

/-- The first n beats of a lap complete, and leave AAP n beats into it. -/
theorem runLabels_take_lapBeats {a : Vector U16 16} {s : State} (h : s.aap.InLap a 0) (n : Nat) (hn : n ≤ 8) :
    ∃ t, runLabels ((lapBeats a).take n) s = .next t ∧ t.aap.InLap a n := by
  induction n with
  | zero => exact ⟨s, rfl, h⟩
  | succ n ih =>
    obtain ⟨u, hu, hlap⟩ := ih (by omega)
    obtain ⟨t, ht, hlap⟩ := runLabel_lapBeat (b := ⟨n, hn⟩) hlap
    have hlen : n < (lapBeats a).length := by simpa [lapBeats] using hn
    have hnext : (lapBeats a)[n] = lapBeat a ⟨n, hn⟩ := List.getElem_ofFn _
    refine ⟨t, ?_, hlap⟩
    rw [List.take_succ_eq_append_getElem hlen, runLabels_append hu, hnext, runLabels_cons_next ht, runLabels_nil]

/-- Settles O40: after the eighth beat of the lap every sample is written and both notifications are raised. -/
theorem oneLapFillsTheBufferInOrder : Obligations.OneLapFillsTheBufferInOrder := by
  intro s a hon hwr
  have hstart : s.aap.InLap a 0 := ⟨hon, congrArg Fin.val hwr, nofun, nofun, nofun⟩
  obtain ⟨t, ht, hlap⟩ := runLabels_take_lapBeats hstart 8 (Nat.le_refl 8)
  exact ⟨t, ht, buf_ext fun k => hlap.written k (by omega), hlap.half (by omega), hlap.full (by omega),
    Fin.ext hlap.wr⟩

end Sys2Proof.Machine

/-! PROOFS. The family of 42_hw_timer_scheduler.md: what the three commands, a count and a service do to one slot, when
a run of counts marks a channel, and the periodic timer that follows. -/

namespace Sys2Proof.Machine

/-! ### One slot of the table -/

theorem Hts.slot_setSlot_self (x : Hts) (i : Fin 4) (t : HSlot) : (x.setSlot i t).slot i = t := by simp

theorem Hts.slot_setSlot_of_ne (x : Hts) {i j : Fin 4} (t : HSlot) (h : j ≠ i) :
    (x.setSlot i t).slot j = x.slot j := by
  simp [h]

/-- Sums of the counter, a deadline and a period wrap modulo 2^16 (42_hw_timer_scheduler.md R160, R164). -/
theorem ofNat_toNat_add_mod (a b : U16) : BitVec.ofNat 16 ((a.toNat + b.toNat) % 2 ^ 16) = a + b :=
  BitVec.eq_of_toNat_eq (by simp)

/-! ### HTS.REG -/

/-- An interval below HTS_MIN_DELTA is refused first (R160). -/
theorem exec_htsReg_of_short (cb : Handle) {delta : U16} (s : State) (h : delta.toNat < 4) :
    exec (.htsReg cb delta) s = .next (s.respond respTooShort) :=
  if_pos (α := Result) h

theorem not_lt_htsMinDelta {delta : U16} (h : 4 ≤ delta.toNat) : ¬ delta < Config.htsMinDelta := Nat.not_lt.2 h

/-- A full table is refused next (R160). -/
theorem exec_htsReg_of_full (cb : Handle) {delta : U16} {s : State} (h : 4 ≤ delta.toNat)
    (hfull : s.hts.lowestFree = none) : exec (.htsReg cb delta) s = .next (s.respond respNoSlot) := by
  rw [exec, execHtsReg, if_neg (not_lt_htsMinDelta h), hfull]

/-- Otherwise the lowest free slot is claimed (R160). -/
theorem exec_htsReg_of_free (cb : Handle) {delta : U16} {s : State} {i : Fin 4} (h : 4 ≤ delta.toNat)
    (hfree : s.hts.lowestFree = some i) :
    exec (.htsReg cb delta) s =
      .next ((s.withHts (s.hts.setSlot i (claimedHSlot s.hts.hcnt cb delta))).respond (respSlot i)) := by
  rw [exec, execHtsReg, if_neg (not_lt_htsMinDelta h), hfree]

/-- Settles O44: the three outcomes of the command, the third with the lowest free slot. -/
theorem htsRegClaimsTheLowestFreeSlot : Obligations.HtsRegClaimsTheLowestFreeSlot := by
  refine ⟨fun c hc => ?_, fun s cb delta =>
    ⟨exec_htsReg_of_short cb s, fun hd hfull => ?_, fun hd i hfree hlow => ?_⟩⟩
  · rw [← fieldsOf_arg0Low]
    exact decode_of_opcode (.htsReg 0 0) hc
  · exact exec_htsReg_of_full cb hd (Hts.lowestFree_eq_none.2 hfull)
  · refine ⟨_, exec_htsReg_of_free cb hd (Hts.lowestFree_eq_some.2 ⟨hfree, hlow⟩), rfl, ?_, fun j hj =>
      Hts.slot_setSlot_of_ne _ _ hj⟩
    rw [ofNat_toNat_add_mod]
    exact Hts.slot_setSlot_self _ _ _

/-! ### HTS.UNREG and HTS.MOD -/

theorem Hts.mapNamed_of_eq {slot : U8} {i : Fin 4} (h : slot.toNat = i.val) (f : HSlot → HSlot) (x : Hts) :
    x.mapNamed slot f = x.setSlot i (f (x.slot i)) := by
  rw [Hts.mapNamed, hSlotOf_of_eq h]

theorem Hts.mapNamed_of_le {slot : U8} (h : 4 ≤ slot.toNat) (f : HSlot → HSlot) (x : Hts) :
    x.mapNamed slot f = x := by
  rw [Hts.mapNamed, hSlotOf_of_le h]

/-- A command that applies a function to the slot its operand names writes that slot only (R161, R162). -/
theorem State.withHts_mapNamed_of_eq {slot : U8} {i : Fin 4} (h : slot.toNat = i.val) (f : HSlot → HSlot)
    (s : State) :
    let t := (s.withHts (s.hts.mapNamed slot f)).respond respOk
    t = { s with hts := { s.hts with slots := t.hts.slots }, trace := s.trace ++ [.response 0] } ∧
      t.hts.slot i = f (s.hts.slot i) ∧ ∀ j, j ≠ i → t.hts.slot j = s.hts.slot j := by
  rw [Hts.mapNamed_of_eq h]
  exact ⟨rfl, Hts.slot_setSlot_self _ _ _, fun j hj => Hts.slot_setSlot_of_ne _ _ hj⟩

/-- Nothing is written when the operand is out of range (R161, R162). -/
theorem State.withHts_mapNamed_of_le {slot : U8} (h : 4 ≤ slot.toNat) (f : HSlot → HSlot) (s : State) :
    s.withHts (s.hts.mapNamed slot f) = s := by
  rw [Hts.mapNamed_of_le h]
  rfl

/-- Settles O45: the command's effect is R161's two writes to the named slot. -/
theorem htsUnregFreesTheSlot : Obligations.HtsUnregFreesTheSlot := by
  refine ⟨fun c hc => decode_of_opcode (.htsUnreg 0) hc, fun s slot => ⟨fun i hi => ?_, fun hslot => ?_⟩⟩
  · exact ⟨_, exec_eq (.htsUnreg slot) s, State.withHts_mapNamed_of_eq hi _ s⟩
  · rw [exec_eq, State.effect, State.withHts_mapNamed_of_le hslot]
    rfl

/-- Settles O46: the command's effect is R162's one write to the named slot. -/
theorem htsModWritesOnlyThePeriod : Obligations.HtsModWritesOnlyThePeriod := by
  refine ⟨fun c hc => ?_, fun s slot delta => ⟨fun i hi => ?_, fun hslot => ?_⟩⟩
  · rw [← fieldsOf_arg0Low]
    exact decode_of_opcode (.htsMod 0 0) hc
  · exact ⟨_, exec_eq (.htsMod slot delta) s, State.withHts_mapNamed_of_eq hi _ s⟩
  · rw [exec_eq, State.effect, State.withHts_mapNamed_of_le hslot]
    rfl

/-! ### One count -/

theorem HSlot.hits_iff {t : HSlot} {hcnt : U16} : t.hits hcnt = true ↔ t.deadline = hcnt ∧ t.ie = true := by
  simp [HSlot.hits]

/-- A count writes no field of a slot but its match flag (R163). -/
theorem Hts.count_slot_frame (x : Hts) (i : Fin 4) :
    x.count.slot i = { x.slot i with pend := (x.count.slot i).pend } := by
  rw [Hts.count_slot]

/-- A count keeps a pending match, and marks an enabled channel whose deadline is the new count (R163). -/
theorem Hts.count_pend_iff {x : Hts} {i : Fin 4} :
    (x.count.slot i).pend = true ↔
      (x.slot i).pend = true ∨ ((x.slot i).deadline = x.hcnt + 1 ∧ (x.slot i).ie = true) := by
  rw [Hts.count_slot, Bool.or_eq_true, HSlot.hits_iff]

/-- Settles O47: the counter, the frame of each slot, and when its match flag is set. -/
theorem hcntTickMarksTheMatches : Obligations.HcntTickMarksTheMatches := by
  refine fun s => ⟨doHcntTick s, rfl, rfl, BitVec.toNat_add s.hts.hcnt 1, fun i =>
    ⟨Hts.count_slot_frame s.hts i, Hts.count_pend_iff.trans ?_⟩⟩
  rw [BitVec.toNat_eq]
  rfl

/-! ### The service -/

theorem doSvcHts_of_some {s : State} {i : Fin 4} {h : Handle} (hcb : (s.hts.slot i).cb = some h) :
    doSvcHts i s =
      (s.withHts (s.hts.setSlot i (s.hts.slot i).serviced)).emit (.cbHts h i (s.hts.slot i).deadline) := by
  rw [doSvcHts, State.notifyHts, hcb]

theorem doSvcHts_of_none {s : State} {i : Fin 4} (hcb : (s.hts.slot i).cb = none) :
    doSvcHts i s = s.withHts (s.hts.setSlot i (s.hts.slot i).serviced) := by
  rw [doSvcHts, State.notifyHts, hcb]

/-- The service writes its slot whether or not the callback is there (R164). -/
@[simp] theorem doSvcHts_hts (s : State) (i : Fin 4) :
    (doSvcHts i s).hts = s.hts.setSlot i (s.hts.slot i).serviced := by
  rw [doSvcHts, State.notifyHts_eq]
  rfl

/-- The service keeps the interrupt enable of a slot with a callback (R164). -/
theorem HSlot.serviced_of_some {t : HSlot} {h : Handle} (hcb : t.cb = some h) :
    t.serviced = { t with pend := false, deadline := t.deadline + t.delta } := by
  simp [HSlot.serviced, hcb]

/-- The service disables the interrupt of a slot whose callback is gone (R164). -/
theorem HSlot.serviced_of_none {t : HSlot} (hcb : t.cb = none) :
    t.serviced = { t with pend := false, ie := false, deadline := t.deadline + t.delta } := by
  simp [HSlot.serviced, hcb]

/-- Settles O48: the service is guarded by the match flag, and has its two arms by the callback. -/
theorem svcHtsStrobesAndReloads : Obligations.SvcHtsStrobesAndReloads := by
  refine fun s i => ⟨runLabel_completes_iff (.svcHts i) s, fun hpend =>
    ⟨doSvcHts i s, by simp [hpend], ?_, fun j hj => ?_, fun h hcb => ?_, fun hcb => ?_⟩⟩
  · rw [doSvcHts, State.notifyHts_eq]
    rfl
  · rw [doSvcHts_hts, Hts.slot_setSlot_of_ne _ _ hj]
  · rw [ofNat_toNat_add_mod, doSvcHts_hts, Hts.slot_setSlot_self, doSvcHts_of_some hcb]
    exact ⟨rfl, HSlot.serviced_of_some hcb⟩
  · rw [ofNat_toNat_add_mod, doSvcHts_hts, Hts.slot_setSlot_self, doSvcHts_of_none hcb]
    exact ⟨rfl, HSlot.serviced_of_none hcb⟩

/-! ### Runs of counts -/

/-- A run of HCNT_TICKs writes HTS only, each by `Hts.count` (R163). -/
theorem runLabels_hcntTicks (n : Nat) (s : State) :
    runLabels (List.replicate n .hcntTick) s = .next (s.withHts (Hts.count^[n] s.hts)) := by
  rw [runLabels_replicate runLabel_hcntTick]
  congr 1
  induction n generalizing s with
  | zero => rfl
  | succ n ih => rw [Function.iterate_succ_apply, ih]; rfl

theorem Hts.hcnt_iterate_count (n : Nat) (x : Hts) : (Hts.count^[n] x).hcnt = x.hcnt + BitVec.ofNat 16 n := by
  induction n with
  | zero => simp
  | succ n ih => rw [Function.iterate_succ_apply', Hts.count_hcnt, ih, BitVec.ofNat_add, BitVec.add_assoc]; rfl

theorem Hts.slot_iterate_count (n : Nat) (x : Hts) (i : Fin 4) :
    (Hts.count^[n] x).slot i = { x.slot i with pend := ((Hts.count^[n] x).slot i).pend } := by
  induction n with
  | zero => rfl
  | succ n ih => rw [Function.iterate_succ_apply', Hts.count_slot, ih]

/-- A run of n counts marks exactly the enabled channels whose deadline is one of the next n counts (R163). -/
theorem Hts.pend_iterate_count_iff {n : Nat} {x : Hts} {i : Fin 4} :
    ((Hts.count^[n] x).slot i).pend = true ↔ (x.slot i).pend = true ∨
      ((∃ k < n, (x.slot i).deadline = x.hcnt + BitVec.ofNat 16 (k + 1)) ∧ (x.slot i).ie = true) := by
  induction n with
  | zero => simp
  | succ n ih =>
    have hnext : (Hts.count^[n] x).hcnt + 1 = x.hcnt + BitVec.ofNat 16 (n + 1) := by
      rw [← Hts.hcnt_iterate_count, Function.iterate_succ_apply', Hts.count_hcnt]
    rw [Function.iterate_succ_apply', Hts.count_pend_iff, ih, hnext, Hts.slot_iterate_count, or_assoc, ← or_and_right,
      Nat.exists_lt_succ_right]

/-- Settles O49: of the next d <= 2^16 counts only the d-th equals the deadline. -/
theorem channelMatchesExactlyAtItsDeadline : Obligations.ChannelMatchesExactlyAtItsDeadline := by
  intro s i d hie hpend hpos hd hdeadline n hn
  refine ⟨_, runLabels_hcntTicks n s, ?_⟩
  rw [Bool.eq_iff_iff, decide_eq_true_iff, State.withHts_hts, Hts.pend_iterate_count_iff]
  have hmatch : ∀ k < n, ((s.hts.slot i).deadline = s.hts.hcnt + BitVec.ofNat 16 (k + 1) ↔ k + 1 = d) := by
    intro k hk
    rw [BitVec.toNat_eq, BitVec.toNat_add, BitVec.toNat_ofNat, ← hdeadline]
    omega
  constructor
  · rintro (h | ⟨⟨k, hk, hkd⟩, -⟩)
    · exact nomatch hpend.symm.trans h
    · have hlast := (hmatch k hk).1 hkd
      omega
  · rintro rfl
    exact .inr ⟨⟨n - 1, by omega, (hmatch _ (by omega)).2 (by omega)⟩, hie⟩

/-! ### The periodic timer -/

/-- Slot `i` is registered with callback `cb` and period `delta`, has no match pending, and has its next deadline, the
count `c` modulo 2^16, `ahead` ticks ahead of the counter. -/
structure Hts.Awaits (i : Fin 4) (cb : Handle) (delta : U16) (c ahead : Nat) (x : Hts) : Prop where
  slot : x.slot i = ⟨BitVec.ofNat 16 c, delta, some cb, true, false⟩
  pos : 0 < ahead
  deadline : BitVec.ofNat 16 c = x.hcnt + BitVec.ofNat 16 ahead

section

variable {i : Fin 4} {cb : Handle} {delta : U16} {c ahead : Nat} {s : State}

/-- A registration awaits the count `delta` ticks ahead (R160). -/
theorem Hts.awaits_claimed (x : Hts) (i : Fin 4) (cb : Handle) (h : 4 ≤ delta.toNat) :
    (x.setSlot i (claimedHSlot x.hcnt cb delta)).Awaits i cb delta (x.hcnt.toNat + delta.toNat) delta.toNat := by
  refine ⟨Hts.slot_setSlot_self _ _ _, by omega, ?_⟩
  rw [BitVec.ofNat_toNat, BitVec.setWidth_eq]
  rfl

/-- The counter reaches the deadline, and goes on for `late` ticks: the match is pending (R163). -/
theorem Hts.Awaits.ticks (h : s.hts.Awaits i cb delta c ahead) (late : Nat) :
    ∃ t, runLabels (List.replicate (ahead + late) .hcntTick) s = .next t ∧ t.trace = s.trace ∧
      t.hts.slot i = ⟨BitVec.ofNat 16 c, delta, some cb, true, true⟩ ∧
      t.hts.hcnt = s.hts.hcnt + BitVec.ofNat 16 (ahead + late) := by
  obtain ⟨hslot, hpos, hdeadline⟩ := h
  have hmatch : (s.hts.slot i).deadline = s.hts.hcnt + BitVec.ofNat 16 (ahead - 1 + 1) := by
    rw [hslot, Nat.sub_add_cancel hpos, ← hdeadline]
  have hie : (s.hts.slot i).ie = true := by rw [hslot]
  have hpend : ((Hts.count^[ahead + late] s.hts).slot i).pend = true :=
    Hts.pend_iterate_count_iff.2 (.inr ⟨⟨ahead - 1, by omega, hmatch⟩, hie⟩)
  refine ⟨_, runLabels_hcntTicks _ s, rfl, ?_, Hts.hcnt_iterate_count _ _⟩
  rw [State.withHts_hts, Hts.slot_iterate_count, hpend, hslot]

/-- The service of a match `late < delta` ticks after the deadline strobes with that deadline and awaits the next one,
`delta` after it, whatever the lateness (R164, R168). -/
theorem Hts.Awaits.round {late : Nat} (h : s.hts.Awaits i cb delta c ahead) (hlate : late < delta.toNat) :
    ∃ t, runLabels (List.replicate (ahead + late) .hcntTick ++ [.svcHts i]) s = .next t ∧
      t.hts.Awaits i cb delta (c + delta.toNat) (delta.toNat - late) ∧
      t.trace = s.trace ++ [.cbHts cb i (BitVec.ofNat 16 c)] := by
  obtain ⟨u, hu, htrace, hslot, hcnt⟩ := h.ticks late
  have hsvc : runLabel (.svcHts i) u = .next (doSvcHts i u) := by simp [hslot]
  have hcb : (u.hts.slot i).cb = some cb := by rw [hslot]
  refine ⟨doSvcHts i u, ?_, ⟨?_, by omega, ?_⟩, ?_⟩
  · rw [runLabels_append hu, runLabels_cons_next hsvc, runLabels_nil]
  · rw [doSvcHts_hts, Hts.slot_setSlot_self, HSlot.serviced_of_some hcb, hslot, BitVec.ofNat_add, BitVec.ofNat_toNat,
      BitVec.setWidth_eq]
  · have hahead : ahead + late + (delta.toNat - late) = ahead + delta.toNat := by omega
    rw [doSvcHts_hts, Hts.setSlot_hcnt, hcnt, BitVec.add_assoc, ← BitVec.ofNat_add, hahead, BitVec.ofNat_add,
      BitVec.ofNat_add, h.deadline, BitVec.add_assoc]
  · rw [doSvcHts_of_some hcb, State.emit_trace, State.withHts_trace, htrace, hslot]

/-- The rounds strobe once per deadline, `delta` apart (R168). -/
theorem Hts.Awaits.rounds {lates : List Nat} (h : s.hts.Awaits i cb delta c ahead)
    (hlates : ∀ r ∈ lates, r < delta.toNat) :
    ∃ t, runLabels (htsRounds i delta.toNat ahead lates) s = .next t ∧
      t.trace = s.trace ++
        (List.range lates.length).map fun n => .cbHts cb i (BitVec.ofNat 16 (c + n * delta.toNat)) := by
  induction lates generalizing c ahead s with
  | nil => exact ⟨s, rfl, by simp⟩
  | cons late rest ih =>
    obtain ⟨hlate, hrest⟩ := List.forall_mem_cons.1 hlates
    obtain ⟨u, hu, hawaits, hstrobe⟩ := h.round hlate
    obtain ⟨t, ht, htrace⟩ := ih hawaits hrest
    refine ⟨t, ?_, ?_⟩
    · rw [htsRounds, List.append_cons, runLabels_append hu, ht]
    · rw [htrace, hstrobe, List.length_cons, List.range_succ_eq_map]
      simp [Nat.succ_mul, Nat.add_assoc, Nat.add_comm delta.toNat]

end

/-- Settles O50: the registration awaits the first deadline, and the rounds strobe with it and its successors. -/
theorem hardwareTimerIsPeriodic : Obligations.HardwareTimerIsPeriodic := by
  intro s i cb delta lates hd hfree hlow hlates
  have hclaim := exec_htsReg_of_free cb hd (Hts.lowestFree_eq_some.2 ⟨hfree, hlow⟩)
  have hreg : runLabel (.cmd (encode (.htsReg cb delta))) s = _ := (doCmd_ok (decode_encode _) s).trans hclaim
  obtain ⟨t, ht, htrace⟩ := (Hts.awaits_claimed s.hts i cb hd).rounds hlates
    (s := (s.withHts (s.hts.setSlot i (claimedHSlot s.hts.hcnt cb delta))).respond (respSlot i))
  refine ⟨t, (runLabels_cons_next hreg _).trans ht, ?_⟩
  rw [htrace]
  simp [respSlot, Nat.succ_mul, Nat.add_assoc, Nat.add_comm delta.toNat]

end Sys2Proof.Machine

/-! PROOFS. The family of 43_soft_timer_ladder.md: what the five commands and a tick do to one slot, which strobes a
tick emits, and the period of a soft timer that is left alone. -/

namespace Sys2Proof.Machine

/-! ### One slot of the table -/

theorem Stl.slot_setSlot_self (x : Stl) (j : Fin 5) (t : SSlot) : (x.setSlot j t).slot j = t := by simp

theorem Stl.slot_setSlot_of_ne (x : Stl) {j k : Fin 5} (t : SSlot) (h : k ≠ j) :
    (x.setSlot j t).slot k = x.slot k := by
  simp [h]

theorem Stl.mapNamed_of_eq {slot : U8} {j : Fin 5} (h : slot.toNat = j.val) (f : SSlot → SSlot) (x : Stl) :
    x.mapNamed slot f = x.setSlot j (f (x.slot j)) := by
  rw [Stl.mapNamed, sSlotOf_of_eq h]

theorem Stl.mapNamed_of_le {slot : U8} (h : 5 ≤ slot.toNat) (f : SSlot → SSlot) (x : Stl) :
    x.mapNamed slot f = x := by
  rw [Stl.mapNamed, sSlotOf_of_le h]

/-! ### STL.REG -/

/-- A full table refuses (43_soft_timer_ladder.md R180). -/
theorem exec_stlReg_of_full (cb : Handle) (period : U32) {s : State} (h : s.stl.lowestFree = none) :
    exec (.stlReg cb period) s = .next (s.respond respNoSlot) := by
  rw [exec, execStlReg, h]

/-- Otherwise the lowest free slot is claimed (R180). -/
theorem exec_stlReg_of_free (cb : Handle) (period : U32) {s : State} {j : Fin 5} (h : s.stl.lowestFree = some j) :
    exec (.stlReg cb period) s =
      .next ((s.withStl (s.stl.setSlot j ⟨some cb, s.stl.tick, period⟩)).respond (respSlot j)) := by
  rw [exec, execStlReg, h]

/-- Settles O51: the two outcomes of the command, the second with the lowest free slot. -/
theorem stlRegClaimsTheLowestFreeSlot : Obligations.StlRegClaimsTheLowestFreeSlot := by
  refine ⟨fun _ hc => decode_of_opcode (.stlReg 0 0) hc, fun s cb period => ⟨fun hfull => ?_, fun j hfree hlow => ?_⟩⟩
  · exact exec_stlReg_of_full cb period (Stl.lowestFree_eq_none.2 hfull)
  · exact ⟨_, exec_stlReg_of_free cb period (Stl.lowestFree_eq_some.2 ⟨hfree, hlow⟩), rfl,
      Stl.slot_setSlot_self _ _ _, fun _ hk => Stl.slot_setSlot_of_ne _ _ hk⟩

/-! ### STL.UNREG and STL.UPD -/

/-- A command that applies a function to the slot its operand names writes that slot only (R181, R182). -/
theorem State.withStl_mapNamed_of_eq {slot : U8} {j : Fin 5} (h : slot.toNat = j.val) (f : SSlot → SSlot)
    (s : State) :
    let t := (s.withStl (s.stl.mapNamed slot f)).respond respOk
    t = { s with stl := { s.stl with slots := t.stl.slots }, trace := s.trace ++ [.response 0] } ∧
      t.stl.slot j = f (s.stl.slot j) ∧ ∀ k, k ≠ j → t.stl.slot k = s.stl.slot k := by
  rw [Stl.mapNamed_of_eq h]
  exact ⟨rfl, Stl.slot_setSlot_self _ _ _, fun _ hk => Stl.slot_setSlot_of_ne _ _ hk⟩

/-- Nothing is written when the operand is out of range (R181, R182). -/
theorem State.withStl_mapNamed_of_le {slot : U8} (h : 5 ≤ slot.toNat) (f : SSlot → SSlot) (s : State) :
    s.withStl (s.stl.mapNamed slot f) = s := by
  rw [Stl.mapNamed_of_le h]
  rfl

/-- Settles O52: the command's effect is R181's write to the named slot. -/
theorem stlUnregFreesTheSlot : Obligations.StlUnregFreesTheSlot := by
  refine ⟨fun _ hc => decode_of_opcode (.stlUnreg 0) hc, fun s slot => ⟨fun j hj => ?_, fun hslot => ?_⟩⟩
  · exact ⟨_, exec_eq (.stlUnreg slot) s, State.withStl_mapNamed_of_eq hj _ s⟩
  · rw [exec_eq, State.effect, State.withStl_mapNamed_of_le hslot]
    rfl

/-- Settles O53: the command's effect is R182's write to the named slot. -/
theorem stlUpdWritesOnlyThePeriod : Obligations.StlUpdWritesOnlyThePeriod := by
  refine ⟨fun _ hc => decode_of_opcode (.stlUpd 0 0) hc, fun s slot period => ⟨fun j hj => ?_, fun hslot => ?_⟩⟩
  · exact ⟨_, exec_eq (.stlUpd slot period) s, State.withStl_mapNamed_of_eq hj _ s⟩
  · rw [exec_eq, State.effect, State.withStl_mapNamed_of_le hslot]
    rfl

/-! ### STL.TS and STL.ELAPSED -/

/-- Settles O54: the command has no effect, and its answer is the tick. -/
theorem stlTsReadsTheTick : Obligations.StlTsReadsTheTick :=
  ⟨fun _ hc => decode_of_opcode .stlTs hc, exec_eq .stlTs⟩

theorem exec_stlElapsed (ts thr : U32) (s : State) :
    exec (.stlElapsed ts thr) s = .next (s.respond (respBool (elapsedExceeds s.stl.tick ts thr))) :=
  exec_eq (.stlElapsed ts thr) s

/-- Settles O55: the answer is the elapsed-time test, which on natural numbers is R185's. -/
theorem stlElapsedIsStrictModulo : Obligations.StlElapsedIsStrictModulo := by
  refine ⟨fun _ hc => decode_of_opcode (.stlElapsed 0 0) hc, fun s ts thr => ⟨fun hlt => ?_, fun hle => ?_⟩⟩
  · rw [exec_stlElapsed, (elapsedExceeds_iff _ _ _).2 hlt]
    rfl
  · have hnot : elapsedExceeds s.stl.tick ts thr = false :=
      Bool.eq_false_iff.2 fun h => Nat.not_lt.2 hle ((elapsedExceeds_iff _ _ _).1 h)
    rw [exec_stlElapsed, hnot]
    rfl

/-! ### One tick -/

/-- When a slot fires, on natural numbers (R183). -/
theorem SSlot.fires_iff {t : SSlot} {tick : U32} :
    t.fires tick = true ↔ t.cb ≠ none ∧ t.period.toNat < (2 ^ 32 + tick.toNat - t.start.toNat) % 2 ^ 32 := by
  rw [SSlot.fires, Bool.and_eq_true, elapsedExceeds_iff, Option.isSome_iff_ne_none]

theorem SSlot.scanned_of_fires {t : SSlot} {tick : U32} (h : t.fires tick = true) :
    t.scanned tick = { t with start := tick } :=
  if_pos h

theorem SSlot.scanned_of_not_fires {t : SSlot} {tick : U32} (h : ¬ t.fires tick = true) : t.scanned tick = t :=
  if_neg h

/-- A slot strobes exactly when it fires, with its callback (R183). -/
theorem SSlot.strobe_eq (t : SSlot) (tick : U32) (j : Fin 5) :
    t.strobe tick j = if t.fires tick then [.cbStl (t.cb.getD 0) j] else [] := by
  cases hcb : t.cb <;> simp [SSlot.strobe, SSlot.fires, hcb]

/-- The slots that fire at the next tick, in ascending order (R183). -/
def Stl.firing (x : Stl) : List (Fin 5) := sSlotIds.filter fun j => (x.slot j).fires (x.tick + 1)

theorem Stl.mem_firing {x : Stl} {j : Fin 5} : j ∈ x.firing ↔ (x.slot j).fires (x.tick + 1) = true := by
  have hj : j ∈ sSlotIds := by revert j; decide
  rw [Stl.firing, List.mem_filter, and_iff_right hj]

theorem Stl.firing_pairwise_lt (x : Stl) : x.firing.Pairwise (· < ·) :=
  List.Pairwise.filter _ (by decide)

/-- A tick emits one strobe for each slot that fires (R183). -/
theorem Stl.strobes_eq (x : Stl) : x.strobes = x.firing.map fun j => .cbStl ((x.slot j).cb.getD 0) j := by
  rw [Stl.strobes, Stl.firing]
  induction sSlotIds with
  | nil => rfl
  | cons j js ih => rw [List.flatMap_cons, ih, SSlot.strobe_eq, List.filter_cons]; split <;> rfl

/-- Settles O56: the tick, each slot as the scan leaves it, and the slots that fire. -/
theorem sysTickFiresTheElapsedSlots : Obligations.SysTickFiresTheElapsedSlots := by
  refine fun s => ⟨doSysTick s, rfl, ?_⟩
  intro fires
  have hfires : ∀ j, (s.stl.slot j).fires (s.stl.tick + 1) = true ↔ fires j := fun _ => SSlot.fires_iff
  refine ⟨rfl, BitVec.toNat_add s.stl.tick 1, fun j => ⟨fun hj => ?_, fun hj => ?_⟩, s.stl.firing,
    s.stl.firing_pairwise_lt, fun j => Stl.mem_firing.trans (hfires j), congrArg (s.trace ++ ·) s.stl.strobes_eq⟩
  · exact (Stl.count_slot s.stl j).trans (SSlot.scanned_of_fires ((hfires j).2 hj))
  · exact (Stl.count_slot s.stl j).trans (SSlot.scanned_of_not_fires (mt (hfires j).1 hj))

/-! ### The strobes of one slot -/

/-- Among the strobes of a tick, those of slot `j` are the one of `j` itself, if it fires. -/
theorem Stl.strobes_filter (x : Stl) (j : Fin 5) :
    x.strobes.filter (Output.isStlStrobe j) = (x.slot j).strobe (x.tick + 1) j := by
  have honly : sSlotIds.filter (· == j) = [j] := by revert j; decide
  have hstrobe : (Output.isStlStrobe j ∘ fun k => .cbStl ((x.slot k).cb.getD 0) k) = (· == j) := rfl
  rw [Stl.strobes_eq, List.filter_map, hstrobe, Stl.firing, List.filter_comm, honly, SSlot.strobe_eq,
    List.filter_singleton]
  cases (x.slot j).fires (x.tick + 1) <;> rfl

theorem doSysTick_stlStrobes (s : State) (j : Fin 5) :
    (doSysTick s).stlStrobes j = s.stlStrobes j ++ (s.stl.slot j).strobe (s.stl.tick + 1) j := by
  rw [← Stl.strobes_filter]
  exact List.filter_append _ _

section

variable {j : Fin 5} {s : State}

/-- A tick at which a slot does not fire leaves the slot and its strobes as they are (R183). -/
theorem doSysTick_of_not_fires (h : ¬ (s.stl.slot j).fires (s.stl.tick + 1) = true) :
    (doSysTick s).stl.slot j = s.stl.slot j ∧ (doSysTick s).stlStrobes j = s.stlStrobes j := by
  refine ⟨(Stl.count_slot s.stl j).trans (SSlot.scanned_of_not_fires h), ?_⟩
  rw [doSysTick_stlStrobes, SSlot.strobe_eq, if_neg h, List.append_nil]

/-- A tick at which a slot fires rearms it at that tick and strobes once (R183). -/
theorem doSysTick_of_fires (h : (s.stl.slot j).fires (s.stl.tick + 1) = true) :
    (doSysTick s).stl.slot j = { s.stl.slot j with start := s.stl.tick + 1 } ∧
      (doSysTick s).stlStrobes j = s.stlStrobes j ++ [.cbStl ((s.stl.slot j).cb.getD 0) j] := by
  refine ⟨(Stl.count_slot s.stl j).trans (SSlot.scanned_of_fires h), ?_⟩
  rw [doSysTick_stlStrobes, SSlot.strobe_eq, if_pos h]

end

/-! ### The period of a soft timer -/

/-- Slot `j` runs with callback `h` and period `period`, and was started `e` ticks ago, at most its period. -/
structure State.TimerAt (j : Fin 5) (h : Handle) (period : U32) (e : Nat) (s : State) : Prop where
  slot : s.stl.slot j = ⟨some h, s.stl.tick - BitVec.ofNat 32 e, period⟩
  le : e ≤ period.toNat

section

variable {j : Fin 5} {h : Handle} {period : U32} {e : Nat} {s : State}

/-- A timer whose period is below 2^32 - 1 fires at the next tick exactly when its period is over: R183's test is
strict (R186). -/
theorem State.TimerAt.fires_iff (ht : s.TimerAt j h period e) (hp : period.toNat + 1 < 2 ^ 32) :
    (s.stl.slot j).fires (s.stl.tick + 1) = true ↔ e = period.toNat := by
  obtain ⟨hslot, hle⟩ := ht
  have helapsed : (s.stl.tick + 1 - (s.stl.tick - BitVec.ofNat 32 e)).toNat = e + 1 := by bv_omega
  rw [hslot, SSlot.fires, elapsedExceeds]
  simp only [Option.isSome_some, Bool.true_and, decide_eq_true_eq, BitVec.lt_def, helapsed]
  omega

/-- Until its period is over, a timer is silent (R186). -/
theorem State.TimerAt.tick_quiet (ht : s.TimerAt j h period e) (hp : period.toNat + 1 < 2 ^ 32)
    (he : e < period.toNat) :
    (doSysTick s).TimerAt j h period (e + 1) ∧ (doSysTick s).stlStrobes j = s.stlStrobes j := by
  obtain ⟨hslot, hstrobes⟩ := doSysTick_of_not_fires (mt (ht.fires_iff hp).1 (Nat.ne_of_lt he))
  have hstart : s.stl.tick - BitVec.ofNat 32 e = s.stl.tick + 1 - BitVec.ofNat 32 (e + 1) := by bv_omega
  exact ⟨⟨by rw [hslot, ht.slot, hstart]; rfl, he⟩, hstrobes⟩

/-- When its period is over, a timer strobes and starts again (R186). -/
theorem State.TimerAt.tick_fires (ht : s.TimerAt j h period period.toNat) (hp : period.toNat + 1 < 2 ^ 32) :
    (doSysTick s).TimerAt j h period 0 ∧ (doSysTick s).stlStrobes j = s.stlStrobes j ++ [.cbStl h j] := by
  obtain ⟨hslot, hstrobes⟩ := doSysTick_of_fires ((ht.fires_iff hp).2 rfl)
  rw [ht.slot] at hslot hstrobes
  exact ⟨⟨hslot.trans (by rw [BitVec.sub_zero]; rfl), Nat.zero_le _⟩, hstrobes⟩

/-- The ticks up to the period are silent. -/
theorem State.TimerAt.ticks (ht : s.TimerAt j h period 0) (hp : period.toNat + 1 < 2 ^ 32) {r : Nat}
    (hr : r ≤ period.toNat) :
    (doSysTick^[r] s).TimerAt j h period r ∧ (doSysTick^[r] s).stlStrobes j = s.stlStrobes j := by
  induction r with
  | zero => exact ⟨ht, rfl⟩
  | succ r ih =>
    obtain ⟨hat, hstrobes⟩ := ih (by omega)
    rw [Function.iterate_succ_apply', ← hstrobes]
    exact hat.tick_quiet hp hr

/-- Every period of P + 1 ticks strobes once, at its last tick (R186). -/
theorem State.TimerAt.periods (ht : s.TimerAt j h period 0) (hp : period.toNat + 1 < 2 ^ 32) (k : Nat) :
    (doSysTick^[k * (period.toNat + 1)] s).TimerAt j h period 0 ∧
      (doSysTick^[k * (period.toNat + 1)] s).stlStrobes j = s.stlStrobes j ++ List.replicate k (.cbStl h j) := by
  induction k with
  | zero => simpa using ht
  | succ k ih =>
    obtain ⟨hstart, hbefore⟩ := ih
    obtain ⟨hend, hquiet⟩ := hstart.ticks hp le_rfl
    obtain ⟨hagain, hstrobe⟩ := hend.tick_fires hp
    rw [Nat.succ_mul, Nat.add_comm, Function.iterate_add_apply, Function.iterate_succ_apply']
    refine ⟨hagain, ?_⟩
    rw [hstrobe, hquiet, hbefore, List.append_assoc, List.replicate_succ']

/-- A timer of the longest period never fires: no elapsed time exceeds 2^32 - 1 (R187). -/
theorem SSlot.not_fires_of_longest {t : SSlot} (ht : t.period.toNat + 1 = 2 ^ 32) (tick : U32) :
    ¬ t.fires tick = true := by
  rw [SSlot.fires_iff]
  omega

/-- So it never strobes (R187). -/
theorem stlStrobes_iterate_of_longest (ht : (s.stl.slot j).period.toNat + 1 = 2 ^ 32) (n : Nat) :
    (doSysTick^[n] s).stlStrobes j = s.stlStrobes j := by
  induction n generalizing s with
  | zero => rfl
  | succ n ih =>
    obtain ⟨hslot, hstrobes⟩ := doSysTick_of_not_fires (SSlot.not_fires_of_longest ht _)
    rw [Function.iterate_succ_apply, ih (by rwa [hslot]), hstrobes]

end

/-- Settles O57: k whole periods and then r silent ticks, and no strobe at all for the longest period. -/
theorem softTimerFiresEveryPeriodPlusOne : Obligations.SoftTimerFiresEveryPeriodPlusOne := by
  intro s j h hcb hstart P
  refine ⟨fun hP k r hr => ⟨_, runLabels_replicate runLabel_sysTick _ s, ?_⟩, fun hP n =>
    ⟨_, runLabels_replicate runLabel_sysTick n s, stlStrobes_iterate_of_longest hP n⟩⟩
  have hat : s.TimerAt j h (s.stl.slot j).period 0 :=
    ⟨by rw [BitVec.sub_zero, ← hcb, ← hstart], Nat.zero_le _⟩
  obtain ⟨hagain, hstrobes⟩ := hat.periods hP k
  rw [Nat.add_comm, Function.iterate_add_apply, (hagain.ticks hP hr).2, hstrobes]

end Sys2Proof.Machine

/-! PROOFS. The family of 60_exceptions.md: why input events of two units commute, how the idle machine takes its
pending services, and why a free soft timer is silent. -/

namespace Sys2Proof.Machine

/-! ### Input events of different units -/

/-- The precondition and the effect of an input event of a unit: both read that unit and the parameters only, and the
effect writes that unit only; an event of STL may also emit (10_state.md R43). -/
inductive ActsOn : Option CoreUnit → (State → Bool) → (State → State) → Prop
  | pce (pre : Pce → Bool) (f : Params → Pce → Pce) :
      ActsOn (some .pce) (fun s => pre s.pce) (fun s => s.withPce (f s.params s.pce))
  | aap (pre : Aap → Bool) (f : Aap → Aap) : ActsOn (some .aap) (fun s => pre s.aap) (fun s => s.withAap (f s.aap))
  | hts (pre : Hts → Bool) (f : Hts → Hts) : ActsOn (some .hts) (fun s => pre s.hts) (fun s => s.withHts (f s.hts))
  | stl (pre : Stl → Bool) (f : Stl → Stl) (out : Stl → List Output) :
      ActsOn (some .stl) (fun s => pre s.stl) (fun s => (s.withStl (f s.stl)).emitAll (out s.stl))

/-- Every input event acts on the unit it belongs to. -/
theorem ActsOn.of_inputEvent {l : Label} (hl : isInputEvent l = true) :
    ∃ f, ActsOn (unitOf l) (enabled l) f ∧ ∀ s, perform l s = .next (f s) := by
  cases l
  case pwmTick => exact ⟨doPwmTick, .pce (fun x => x.pceOn) Pce.tick, fun _ => rfl⟩
  case brk => exact ⟨doBrk, .pce (fun _ => true) (fun _ x => { x with moe := false }), fun _ => rfl⟩
  case dmaBeat a1 a2 => exact ⟨doDmaBeat a1 a2, .aap (fun x => x.acqOn) (Aap.beat a1 a2), fun _ => rfl⟩
  case dmaErr => exact ⟨doDmaErr, .aap (fun x => x.acqOn) (fun x => { x with teIrq := true }), fun _ => rfl⟩
  case hcntTick => exact ⟨doHcntTick, .hts (fun _ => true) Hts.count, fun _ => rfl⟩
  case sysTick => exact ⟨doSysTick, .stl (fun _ => true) Stl.count Stl.strobes, fun _ => rfl⟩
  case cmd | svcCom | svcHt | svcTc | svcTe | svcHts | reset => exact nomatch hl

/-- Actions on different units do not touch each other's precondition, and commute (60_exceptions.md R208). -/
theorem ActsOn.commute {u v : Option CoreUnit} {pre qre : State → Bool} {f g : State → State} (hf : ActsOn u pre f)
    (hg : ActsOn v qre g) (hne : u ≠ v) (s : State) : qre (f s) = qre s ∧ g (f s) = f (g s) := by
  cases hf <;> cases hg
  case pce.pce | aap.aap | hts.hts | stl.stl => exact absurd rfl hne
  all_goals exact ⟨rfl, rfl⟩

/-- A run of two labels whose effects are known. -/
theorem runLabels_pair_iff {l m : Label} {f g : State → State} (hf : ∀ s, perform l s = .next (f s))
    (hg : ∀ s, perform m s = .next (g s)) {s t : State} :
    runLabels [l, m] s = .next t ↔ enabled l s = true ∧ enabled m (f s) = true ∧ g (f s) = t := by
  constructor
  · intro h
    obtain ⟨u, hl, h⟩ := runLabels_cons_inv h
    obtain ⟨w, hm, h⟩ := runLabels_cons_inv h
    rw [runLabel_eq_next_iff, hf, next_eq_next_iff] at hl
    rw [runLabel_eq_next_iff, hg, next_eq_next_iff] at hm
    obtain ⟨hl, rfl⟩ := hl
    obtain ⟨hm, rfl⟩ := hm
    exact ⟨hl, hm, next_eq_next_iff.1 h⟩
  · rintro ⟨hl, hm, rfl⟩
    rw [runLabels_cons_next (runLabel_eq_next_iff.2 ⟨hl, hf s⟩),
      runLabels_cons_next (runLabel_eq_next_iff.2 ⟨hm, hg _⟩), runLabels_nil]

/-- Settles O11: the two events act on different units, so neither enables, disables or changes the other. -/
theorem inputEventsOfTwoUnitsCommute : Obligations.InputEventsOfTwoUnitsCommute := by
  intro l m s t hl hm hne h
  obtain ⟨f, hf, hlf⟩ := ActsOn.of_inputEvent hl
  obtain ⟨g, hg, hmg⟩ := ActsOn.of_inputEvent hm
  obtain ⟨hpre, hcomm⟩ := hf.commute hg hne s
  have hpre' := (hg.commute hf hne.symm s).1
  rw [runLabels_pair_iff hlf hmg, hpre] at h
  rw [runLabels_pair_iff hmg hlf, hpre', ← hcomm]
  exact ⟨h.2.1, h.1, h.2.2⟩

/-! ### The counter of choices -/

/-- Replace the number of free choices made. -/
def State.withChoices (n : Nat) (s : State) : State := { s with choices := n }

@[simp] theorem effect_withChoices (i : Instr) (s : State) (n : Nat) :
    (s.withChoices n).effect i = (s.effect i).withChoices n := by
  cases i <;> rfl

@[simp] theorem answer_withChoices (i : Instr) (s : State) (n : Nat) : (s.withChoices n).answer i = s.answer i := by
  cases i <;> rfl

@[simp] theorem enabled_withChoices (l : Label) (s : State) (n : Nat) :
    enabled l (s.withChoices n) = enabled l s := by
  cases l <;> rfl

theorem doCmd_withChoices {c : Command} {s t : State} (h : doCmd c s = .next t) (n : Nat) :
    doCmd c (s.withChoices n) = .next (t.withChoices n) := by
  rcases doCmd_cases h with ⟨i, hc, rfl⟩ | ⟨⟨e, hc⟩, rfl⟩
  · rw [doCmd_ok hc, exec_eq, effect_withChoices, answer_withChoices]
    rfl
  · exact doCmd_error hc _

/-- No effect of a label reads or writes the counter of choices. -/
theorem perform_withChoices {l : Label} {s t : State} (h : perform l s = .next t) (n : Nat) :
    perform l (s.withChoices n) = .next (t.withChoices n) := by
  cases l
  case cmd c => exact doCmd_withChoices h n
  all_goals obtain rfl := next_eq_next_iff.1 h
  case svcHt => simp only [perform, doSvcHt_eq]; rfl
  case svcTc => simp only [perform, doSvcTc_eq]; rfl
  case svcHts i => simp only [perform, doSvcHts, State.notifyHts_eq]; rfl
  all_goals rfl

theorem runLabel_withChoices {l : Label} {s t : State} (h : runLabel l s = .next t) (n : Nat) :
    runLabel l (s.withChoices n) = .next (t.withChoices n) := by
  obtain ⟨henabled, hp⟩ := runLabel_eq_next_iff.1 h
  exact runLabel_eq_next_iff.2 ⟨(enabled_withChoices l s n).trans henabled, perform_withChoices hp n⟩

/-- A label makes no free choice. -/
theorem choices_of_runLabel {l : Label} {s t : State} (h : runLabel l s = .next t) : t.choices = s.choices := by
  have hsame : runLabel l s = .next (t.withChoices s.choices) := runLabel_withChoices h s.choices
  rw [h, next_eq_next_iff] at hsame
  rw [hsame]
  rfl

theorem runLabels_withChoices {ls : List Label} {s t : State} (h : runLabels ls s = .next t) (n : Nat) :
    runLabels ls (s.withChoices n) = .next (t.withChoices n) := by
  induction ls generalizing s with
  | nil => cases h; rfl
  | cons l ls ih =>
    obtain ⟨u, hu, h⟩ := runLabels_cons_inv h
    rw [runLabels_cons_next (runLabel_withChoices hu n), ih h]

/-! ### Pending services -/

/-- A service clears its own pending flag and changes no other precondition (R204). -/
theorem enabled_of_service {l : Label} {s t : State} (hl : l ∈ services) (h : perform l s = .next t) (m : Label) :
    enabled m t = (m != l && enabled m s) := by
  cases l
  case svcCom =>
    obtain rfl := next_eq_next_iff.1 h
    rw [doSvcCom, Pce.service_frame]
    cases m <;> rfl
  case svcHts i =>
    obtain rfl := next_eq_next_iff.1 h
    cases m
    case svcHts k => by_cases hk : k = i <;> simp [enabled, hk, HSlot.serviced]
    all_goals rw [doSvcHts, State.notifyHts_eq]; rfl
  case svcHt => obtain rfl := next_eq_next_iff.1 h; rw [doSvcHt_eq]; cases m <;> rfl
  case svcTc => obtain rfl := next_eq_next_iff.1 h; rw [doSvcTc_eq]; cases m <;> rfl
  case svcTe => obtain rfl := next_eq_next_iff.1 h; cases m <;> rfl
  all_goals exact absurd hl (by simp [services])

/-- A service takes itself off the pending ones. -/
theorem enabledServices_of_service {l : Label} {s t : State} (hl : l ∈ enabledServices s)
    (h : runLabel l s = .next t) : enabledServices t = (enabledServices s).erase l := by
  have hnodup : (enabledServices s).Nodup := List.Nodup.filter _ (by decide : services.Nodup)
  have henabled := enabled_of_service (List.mem_of_mem_filter hl) (runLabel_eq_next_iff.1 h).2
  rw [hnodup.erase_eq_filter, enabledServices, enabledServices, List.filter_filter]
  exact List.filter_congr fun m _ => henabled m

/-- The idle machine with a service pending takes one of them (70_reset_and_hazards.md R250, log entry 3). -/
theorem step_takes_pending {s : State} (hagenda : s.agenda = []) (hpos : 0 < s.pendingCount) :
    ∃ l ∈ enabledServices s, ∃ t, step s = .next t ∧ runLabel l (s.withChoices (s.choices + 1)) = .next t ∧
      t.agenda = [] ∧ enabledServices t = (enabledServices s).erase l := by
  have hstep : step s = idleStep s := by rw [step, hagenda]
  rcases idleStep_cases s with ⟨hnone, -⟩ | ⟨l, hl, hidle⟩
  · rw [State.pendingCount, hnone] at hpos
    exact absurd hpos (Nat.lt_irrefl 0)
  · obtain ⟨-, henabled⟩ := List.mem_filter.1 hl
    obtain ⟨t, ht⟩ := (runLabel_completes_iff l (s.withChoices (s.choices + 1))).2 henabled
    obtain ⟨-, -, htagenda, -⟩ := eachUnitIsWrittenByItsOwnLabels l _ t ht
    exact ⟨l, hl, t, hstep.trans (hidle.trans ht), ht, htagenda.trans hagenda,
      enabledServices_of_service (s := s.withChoices (s.choices + 1)) hl ht⟩

/-- With no service pending the idle machine waits (log entry 3). -/
theorem step_of_no_pending {s : State} (hagenda : s.agenda = []) (hzero : s.pendingCount = 0) :
    step s = .next s := by
  rw [step, hagenda]
  rcases idleStep_cases s with ⟨-, hidle⟩ | ⟨l, hl, -⟩
  · exact hidle
  · rw [List.length_eq_zero_iff.1 hzero] at hl
    exact nomatch hl

/-- As many idle steps as there are pending services take each of them once, in some order (R205, R250). -/
theorem run_takes_all_pending {s : State} (hagenda : s.agenda = []) :
    ∃ (order : List Label) (t : State), order.Perm (enabledServices s) ∧ runLabels order s = .next t ∧
      t.pendingCount = 0 ∧
      Host.Core.run core s.pendingCount s = .next (t.withChoices (s.choices + s.pendingCount)) := by
  induction hn : s.pendingCount generalizing s with
  | zero =>
    refine ⟨[], s, ?_, rfl, hn, rfl⟩
    rw [List.length_eq_zero_iff.1 hn]
  | succ n ih =>
    obtain ⟨l, hl, t, hstep, hrun, htagenda, herase⟩ := step_takes_pending hagenda (by omega)
    have hcount : t.pendingCount = n := by
      rw [State.pendingCount, herase, List.length_erase_of_mem hl]
      exact congrArg (· - 1) hn
    have hchoices : t.choices = s.choices + 1 := choices_of_runLabel hrun
    obtain ⟨order, u, hperm, hrest, hzero, hsteps⟩ := ih htagenda hcount
    refine ⟨l :: order, u.withChoices s.choices, ?_, ?_, hzero, ?_⟩
    · rw [herase] at hperm
      exact (hperm.cons l).trans (List.perm_cons_erase hl).symm
    · exact (runLabels_cons_next (runLabel_withChoices hrun s.choices) order).trans
        (runLabels_withChoices hrest s.choices)
    · rw [hchoices, Nat.add_right_comm] at hsteps
      exact (run_succ_of_step (M := core) hstep n).trans hsteps

/-- Settles O12: a service takes exactly itself off the pending ones, and does the same whatever the counter of
choices is. -/
theorem pendingServicesAreTaken : Obligations.PendingServicesAreTaken := by
  intro s hagenda
  refine ⟨step_of_no_pending hagenda, fun hpos => ?_, run_takes_all_pending hagenda⟩
  obtain ⟨l, hl, t, hstep, hrun, htagenda, herase⟩ := step_takes_pending hagenda hpos
  refine ⟨l, hl, t, hstep, hrun, htagenda, ?_⟩
  rw [State.pendingCount, herase, List.length_erase_of_mem hl]
  exact Nat.sub_add_cancel hpos

/-! ### Free soft timers -/

/-- Outputs that are no strobes of the slot leave its strobes as they are. -/
theorem State.stlStrobes_emitAll_of_silent (s : State) {os : List Output} {j : Fin 5}
    (hos : ∀ o ∈ os, Output.isStlStrobe j o = false) : (s.emitAll os).stlStrobes j = s.stlStrobes j := by
  have hnone : os.filter (Output.isStlStrobe j) = [] :=
    List.filter_eq_nil_iff.2 fun o ho => Bool.eq_false_iff.1 (hos o ho)
  rw [State.stlStrobes, State.emitAll, List.filter_append, hnone, List.append_nil, State.stlStrobes]

/-- Only SYS_TICK emits strobes of soft timers (43_soft_timer_ladder.md R183). -/
theorem stlStrobes_of_perform {l : Label} {s t : State} (hl : l ≠ .sysTick) (h : perform l s = .next t)
    (j : Fin 5) : t.stlStrobes j = s.stlStrobes j := by
  cases l
  case cmd c =>
    rcases doCmd_cases h with ⟨i, -, rfl⟩ | ⟨-, rfl⟩ <;> simp [State.stlStrobes, Output.isStlStrobe]
  all_goals obtain rfl := next_eq_next_iff.1 h
  case svcCom | svcTe => exact State.stlStrobes_emitAll_of_silent _ (by simp [Output.isStlStrobe])
  case svcHt =>
    rw [doSvcHt_eq]
    exact State.stlStrobes_emitAll_of_silent _ (by simp [Output.isStlStrobe])
  case svcTc =>
    rw [doSvcTc_eq]
    exact State.stlStrobes_emitAll_of_silent _ (by simp [Output.isStlStrobe])
  case svcHts i =>
    rw [doSvcHts, State.notifyHts_eq]
    exact State.stlStrobes_emitAll_of_silent _ (by simp [Output.isStlStrobe])
  case sysTick => exact absurd rfl hl
  all_goals rfl

/-- What keeps a free slot free keeps it free when it is applied to the slot an operand names. -/
theorem Stl.mapNamed_free {x : Stl} {j : Fin 5} (hfree : (x.slot j).cb = none) (slot : U8) {f : SSlot → SSlot}
    (hf : ∀ t : SSlot, t.cb = none → (f t).cb = none) : ((x.mapNamed slot f).slot j).cb = none := by
  unfold Stl.mapNamed
  split
  · rw [Stl.slot_setSlot]
    split
    · next h => exact hf _ (h ▸ hfree)
    · exact hfree
  · exact hfree

/-- A command other than STL.REG keeps a free slot free (R181, R182). -/
theorem free_of_effect {i : Instr} {s : State} {j : Fin 5} (hfree : (s.stl.slot j).cb = none)
    (hi : ∀ cb period, i ≠ .stlReg cb period) : ((s.effect i).stl.slot j).cb = none := by
  cases i
  case stlReg cb period => exact absurd rfl (hi cb period)
  case stlUnreg slot => exact Stl.mapNamed_free hfree slot fun _ _ => rfl
  case stlUpd slot period => exact Stl.mapNamed_free hfree slot fun _ h => h
  all_goals exact hfree

theorem SSlot.not_fires_of_free {t : SSlot} (ht : t.cb = none) (tick : U32) : ¬ t.fires tick = true :=
  fun h => (SSlot.fires_iff.1 h).1 ht

theorem Stl.reset_free (j : Fin 5) : (Stl.reset.slot j).cb = none := by
  revert j
  decide

/-- A free slot stays free in every step that is not an STL.REG (60_exceptions.md R218). -/
theorem free_of_perform {l : Label} {s t : State} {j : Fin 5} (hfree : (s.stl.slot j).cb = none)
    (h : perform l s = .next t) :
    (t.stl.slot j).cb = none ∨ ∃ c cb period, l = .cmd c ∧ decode c = .ok (.stlReg cb period) := by
  cases l
  case cmd c =>
    rcases doCmd_cases h with ⟨i, hc, rfl⟩ | ⟨-, rfl⟩
    · by_cases hi : ∃ cb period, i = .stlReg cb period
      · obtain ⟨cb, period, rfl⟩ := hi
        exact .inr ⟨c, cb, period, rfl, hc⟩
      · exact .inl (free_of_effect hfree fun cb period heq => hi ⟨cb, period, heq⟩)
    · exact .inl hfree
  case sysTick =>
    obtain rfl := next_eq_next_iff.1 h
    rw [(doSysTick_of_not_fires (SSlot.not_fires_of_free hfree _)).1]
    exact .inl hfree
  case reset =>
    obtain rfl := next_eq_next_iff.1 h
    exact .inl (Stl.reset_free j)
  all_goals
    left
    rw [(WritesOnly.of_perform (by simp) h).stl (by simp [unitOf])]
    exact hfree

/-- Settles O58: only SYS_TICK strobes, and at a tick a free slot does not fire; only STL.REG writes a callback. -/
theorem freeSoftTimerIsSilent : Obligations.FreeSoftTimerIsSilent := by
  intro l s t j hfree h
  obtain ⟨-, hp⟩ := runLabel_eq_next_iff.1 h
  refine ⟨?_, free_of_perform hfree hp⟩
  by_cases hl : l = .sysTick
  · subst hl
    obtain rfl := next_eq_next_iff.1 hp
    exact (doSysTick_of_not_fires (SSlot.not_fires_of_free hfree _)).2
  · exact stlStrobes_of_perform hl hp j

end Sys2Proof.Machine
